-- ==== Sys2Proof/Word.lean ====
section
/-! DEFINITION. The widths the hardware fixes: one bit, the 32-bit command and response word
(30_encoding.md R51, R52), and the 15-bit shift register (10_state.md R14). -/

namespace Sys2Proof

/-- One element of an address space, an element of 0 and 1 (00_scope.md section 5, 20_memory.md R32):
`false` is 0, `true` is 1. -/
abbrev Bit := Bool

/-- A command word or a response word (30_encoding.md R51, R52); bit 31 is the most significant. -/
abbrev Word32 := BitVec 32

/-- The value of the shift register `sr`: bits 14 down to 0 (10_state.md R14). -/
abbrev ShiftReg := BitVec 15

end Sys2Proof
end

