-- ==== Sys2Proof/Syntax.lean ====
section
/-! DEFINITION. The five operations of 30_encoding.md R50, one constructor per row of opcode_table.json. -/

namespace Sys2Proof

/-- The two standard variants, written `A` and `B` (30_encoding.md R57, R60). -/
inductive Standard where
  | a
  | b
  deriving DecidableEq, Repr

/-- The three frame-size classes (00_scope.md R5, 30_encoding.md R57). -/
inductive FrameClass where
  | normal
  | short
  | medium
  deriving DecidableEq, Repr

/-- An operation of the harness. The frame length `k` of `INIT` and the item count `n` of `PROC` are
counts (30_encoding.md R54, R55 allow an unbounded number; WellFormed bounds them to the 28-bit field);
`rate` is the 8-bit rate code of R57. -/
inductive Instr where
  | init (k : Nat)
  | proc (n : Nat)
  | rdk
  | rdstat
  | resolve (std : Standard) (cls : FrameClass) (rate : BitVec 8)
  deriving DecidableEq, Repr

end Sys2Proof
end

