-- ==== Sys2Proof/WellFormed.lean ====
section
/-! DEFINITION. When an operation's operands fit their fields (30_encoding.md R54, R55, R57, R63). -/

namespace Sys2Proof

/-- The bound of the 28-bit operand field; the largest count one word can spell is one less
(`N_MAX` of 00_scope.md R6). -/
def argLimit : Nat := 2 ^ 28

/-- The operands fit their fields: `k` of `INIT` and `N` of `PROC` are below `2^28` (30_encoding.md
R54, R55). The fields of `RESOLVE` are typed, so every value of them fits (R57). -/
def Instr.wellFormed : Instr → Bool
  | .init k => decide (k < argLimit)
  | .proc n => decide (n < argLimit)
  | .rdk => true
  | .rdstat => true
  | .resolve _ _ _ => true

end Sys2Proof
end

