-- ==== Sys2Proof/Decode.lean ====
section
/-! DEFINITION. The decoder and the encoder of command words (30_encoding.md R51 to R63), and the rows
of the opcode map (R53). -/

namespace Sys2Proof

/-- Why a command word is reserved (30_encoding.md R58). Every reserved word raises
`IllegalOperation` when it is issued, whichever reason it has. -/
inductive Reserved where
  /-- `op` is 0x0 or in 0x6 .. 0xF. -/
  | opcode
  /-- `RDK` or `RDSTAT` with a nonzero `arg`. -/
  | nonzeroArg
  /-- `RESOLVE` with `arg[27:11]` not 0. -/
  | resolveZeroField
  /-- `RESOLVE` with the class field 3. -/
  | resolveClass
  deriving DecidableEq, Repr

/-- Bits 31:28 of a command word, the operation code (30_encoding.md R51). -/
def opField (w : Word32) : BitVec 4 := w.extractLsb' 28 4

/-- Bits 27:0 of a command word, the operand (30_encoding.md R51). -/
def argField (w : Word32) : BitVec 28 := w.extractLsb' 0 28

/-- The `std` field: 0 is variant A, 1 is variant B (30_encoding.md R57). -/
def Standard.ofBit (b : Bit) : Standard := if b then .b else .a

/-- The number of a standard variant in the `std` field (30_encoding.md R57). -/
def Standard.code : Standard → Word32
  | .a => 0
  | .b => 1

/-- The `cls` field: 0 NORMAL, 1 SHORT, 2 MEDIUM, 3 reserved (30_encoding.md R57). -/
def FrameClass.ofField (c : BitVec 2) : Option FrameClass :=
  if c = 0 then some .normal
  else if c = 1 then some .short
  else if c = 2 then some .medium
  else none

/-- The number of a frame-size class in the `cls` field (30_encoding.md R57). -/
def FrameClass.code : FrameClass → Word32
  | .normal => 0
  | .short => 1
  | .medium => 2

/-- The operand of `RDK` and `RDSTAT` must be 0 (30_encoding.md R56). -/
def decodeNoOperand (i : Instr) (arg : BitVec 28) : Except Reserved Instr :=
  if arg = 0 then .ok i else .error .nonzeroArg

/-- The operand of `RESOLVE`: bits 27:11 zero, `std` in bit 10, `cls` in bits 9:8, `rate` in bits 7:0
(30_encoding.md R57). -/
def decodeResolve (arg : BitVec 28) : Except Reserved Instr :=
  if arg.extractLsb' 11 17 = 0 then
    match FrameClass.ofField (arg.extractLsb' 8 2) with
    | some c => .ok (.resolve (Standard.ofBit (arg.getLsbD 10)) c (arg.extractLsb' 0 8))
    | none => .error .resolveClass
  else .error .resolveZeroField

/-- Decoding, total on all 32-bit words (30_encoding.md R63): an operation, or the reason why the word
is reserved. -/
def decode (w : Word32) : Except Reserved Instr :=
  match (opField w).toNat with
  | 1 => .ok (.init (argField w).toNat)
  | 2 => .ok (.proc (argField w).toNat)
  | 3 => decodeNoOperand .rdk (argField w)
  | 4 => decodeNoOperand .rdstat (argField w)
  | 5 => decodeResolve (argField w)
  | _ => .error .opcode

/-- The word of a well-formed operation (30_encoding.md R63). -/
def encode : Instr → Word32
  | .init k => 0x10000000#32 ||| BitVec.ofNat 32 k
  | .proc n => 0x20000000#32 ||| BitVec.ofNat 32 n
  | .rdk => 0x30000000#32
  | .rdstat => 0x40000000#32
  | .resolve std cls rate =>
      0x50000000#32 ||| (std.code <<< 10) ||| (cls.code <<< 8) ||| rate.setWidth 32

/-- The `match` word of the operation's row of the opcode map (30_encoding.md R53). -/
def Instr.rowMatch : Instr → Word32
  | .init _ => 0x10000000#32
  | .proc _ => 0x20000000#32
  | .rdk => 0x30000000#32
  | .rdstat => 0x40000000#32
  | .resolve _ _ _ => 0x50000000#32

/-- The `mask` word of the operation's row of the opcode map (30_encoding.md R53). -/
def Instr.rowMask : Instr → Word32
  | .init _ => 0xF0000000#32
  | .proc _ => 0xF0000000#32
  | .rdk => 0xFFFFFFFF#32
  | .rdstat => 0xFFFFFFFF#32
  | .resolve _ _ _ => 0xFFFFF800#32

/-- The opcode map of 30_encoding.md R53: the pairs of `match` and `mask`, in the order of `op`. -/
def opcodeRows : List (Word32 × Word32) :=
  [ (0x10000000#32, 0xF0000000#32),
    (0x20000000#32, 0xF0000000#32),
    (0x30000000#32, 0xFFFFFFFF#32),
    (0x40000000#32, 0xFFFFFFFF#32),
    (0x50000000#32, 0xFFFFF800#32) ]

/-- The command word that the bits `w`, `nbits` of them, stand for: one word of 32 bits, the bits above
`nbits` zero (30_encoding.md R51: one length and one format). -/
def tableWord (nbits w : Nat) : Word32 := BitVec.ofNat 32 (w % 2 ^ nbits)

/-- What the decoder reads from an instruction whose bits are `w`, numbered as opcode_table.json numbers
them. No instruction is longer than one word. -/
def decodeTableWord (nbits w : Nat) : Option Instr :=
  if nbits ≤ 32 then (decode (tableWord nbits w)).toOption else none

end Sys2Proof
end

