-- ==== Sys2Proof/Machine/State.lean ====
section
/-! DEFINITION. The state of the machine as plain data: the engine, which is the architectural state of
10_state.md R10 and nothing else; beside it the port, which carries a step's parameters in and its answer out
(10_state.md R22, 70_reset_and_hazards.md R145); and State.reset (R26). -/

namespace Sys2Proof.Machine

/-- The lifecycle state (10_state.md R11). -/
inductive Mode where
  | uninitialized
  | ready
  deriving DecidableEq, Repr

/-- The address space `SEQ` (20_memory.md R30) as a list of (index, element) pairs with strictly rising
indices; an index that is not listed is an unwritten entry and holds no value (10_state.md R15). -/
abbrev Memory := List (Nat × Bit)

/-- The canonical form: the indices rise strictly. An unlisted entry holds no value, so no listed entry
can equal what an unlisted one reads as. -/
abbrev Memory.wf (m : Memory) : Prop := m.Pairwise fun x y => x.1 < y.1

/-- The three faults of the spec (60_exceptions.md R110). A fault of the spec does not stop the machine:
raising one is a next state (R113). -/
inductive CoreFault where
  | configurationError
  | misalignedInput
  | illegalOperation
  deriving DecidableEq, Repr

/-- One move of the harness (70_reset_and_hazards.md R145), the parameters of one step (10_state.md R22): a
command word with the listed elements of the buffer `IN` it binds, or the reset event (R130). -/
inductive Request where
  | command (word : Word32) (input : List Bit)
  | reset
  deriving DecidableEq, Repr

/-- What the harness gets back for one operation: the response word (30_encoding.md R52) and the elements
of `OUT` the operation wrote, `OUT[0]` first (20_memory.md R45); none unless it is a `PROC` without fault. -/
structure Reply where
  rsp : Word32
  out : List Bit
  deriving DecidableEq, Repr

/-- Why a step stops. No run from reset reaches any of these (10_state.md R15, 20_memory.md R46,
42_descrambler.md R102): each is SAFE, a stop where the spec gives the machine no behaviour. -/
inductive Fault where
  /-- Raised by `PROC` (and `MemRead` of `SEQ`) on an entry nothing has written (10_state.md R15). Safe. -/
  | unwrittenEntry
  /-- Raised by `PROC` (and `MemRead` of `SEQ`) at an index not below `MAX_SEQUENCE_LENGTH`: such an
  access has no meaning in the spec (20_memory.md R45); that it stops is the model's choice (DEDUCED,
  notes/assumptions/9.md). Safe. -/
  | seqIndexOutOfRange
  /-- Raised by `PROC` on a Ready engine whose `kbch` is 0: the zero-stride loop is never modelled
  (93_implementation_defined.md U1); that it stops here is the model's choice (DEDUCED,
  notes/assumptions/9.md). Safe. -/
  | zeroFrameLength
  deriving DecidableEq, Repr

/-- Why a step refuses. No step does: every operation has its meaning. -/
inductive Refusal where
  /-- An operation rejected by name in exec's arm; no arm uses it. Safe. -/
  | notModelled (mnemonic : String)
  deriving DecidableEq, Repr

/-- The core: the architectural state `(mode, kbch, seq, sr, STATUS)` of 10_state.md R10, with `STATUS.READY`
a view of `mode` (R18). It holds no buffer, no operand and no history of earlier calls (R22). -/
structure Engine where
  /-- The lifecycle register (R11). -/
  mode : Mode
  /-- The frame length (R12). -/
  kbch : Nat
  /-- The sequence table (R13). -/
  seq : Memory
  /-- The shift register (R14). -/
  sr : ShiftReg
  /-- `STATUS` bit 1, sticky (R18). -/
  cfgErr : Bool
  /-- `STATUS` bit 2, sticky (R18). -/
  callErr : Bool
  /-- `STATUS` bit 3, sticky (R18). -/
  opErr : Bool
  deriving DecidableEq, Repr

/-- The state: the engine, and the port through which the harness drives it. Host.Core's step takes nothing
but the state, so the parameters of the step (10_state.md R22) come with the move at the head of `requests`;
the step that takes the move drops it whole. `fresh` is the model's own. -/
structure State extends Engine where
  /-- What the harness has still to issue, oldest first (notes/assumptions/6.md). -/
  requests : List Request
  /-- What the latest step answered, if it answered: every step overwrites it (30_encoding.md R52;
  notes/assumptions/8.md). -/
  reply : Option Reply
  /-- How many moves of the harness are over: the counter the free values are applied to
  (notes/assumptions/7.md). -/
  fresh : Nat
  deriving DecidableEq, Repr

/-- The machine right after reset (10_state.md R26). The spec leaves `sr` unspecified; 0 is the model's
(DESIGN CHOICE, notes/assumptions/3.md), and no operation reads it. -/
def State.reset : State where
  mode := .uninitialized
  kbch := 0
  seq := []
  sr := 0
  cfgErr := false
  callErr := false
  opErr := false
  requests := []
  reply := none
  fresh := 0

end Sys2Proof.Machine
end

