-- ==== Sys2Proof/Machine/Flags.lean ====
section
/-! DEFINITION. The register `STATUS` (10_state.md R18): its value as read, and its sticky bits. -/

namespace Sys2Proof.Machine

/-- `STATUS.READY`, the view of `mode` (10_state.md R18). -/
def State.ready (s : State) : Bool := decide (s.mode = .ready)

/-- `zext_28(STATUS)`: bit 0 `READY`, bit 1 `CFG_ERR`, bit 2 `CALL_ERR`, bit 3 `OP_ERR`, bits 27:4 zero
(10_state.md R18, 43_status.md R106). -/
def State.status (s : State) : BitVec 28 :=
  0#24 ++ BitVec.ofBool s.opErr ++ BitVec.ofBool s.callErr ++ BitVec.ofBool s.cfgErr ++
    BitVec.ofBool s.ready

/-- Set the sticky bit of a fault (60_exceptions.md R110). -/
def State.stick (s : State) : CoreFault → State
  | .configurationError => { s with cfgErr := true }
  | .misalignedInput => { s with callErr := true }
  | .illegalOperation => { s with opErr := true }

/-- Whether a sticky error bit is set (70_reset_and_hazards.md R143). -/
def State.errorRecorded (s : State) : Bool := s.cfgErr || s.callErr || s.opErr

end Sys2Proof.Machine
end

