-- ==== Sys2Proof/Config.lean ====
section
/-! DEFINITION. What an implementation fixes and the spec leaves open (00_scope.md R6), and the free
values. None of the opaque constants has a body: nothing can be proved of their values but what the
fields of `Params` say. -/

namespace Sys2Proof

/-- A named code-rate identifier, such as the one the source writes as 1/4 (00_scope.md R6). -/
abbrev RateId := String

/-- The open parameters of 00_scope.md R6 with every constraint the spec puts on them. The default
values are no choice of the model: they only show Lean that the constraints can be met together
(`deriving Inhabited`), and no proof can see them through the opaque `Config.params`. -/
structure Params where
  /-- `MAX_SEQUENCE_LENGTH` less the 16008 that R6 gives as its lower bound. -/
  extraLength : Nat := 0
  /-- `KW`, the width of the `kbch` register (R6). -/
  kw : Nat := 14
  /-- `RateId`: the finite set of code-rate identifiers (R6, 30_encoding.md R57). -/
  rateIds : List RateId := ["1/4", "1/3", "1/2", "1/5"]
  /-- `RateCode` of 30_encoding.md R57. -/
  rateCode : RateId → BitVec 8 :=
    fun r => if r = "1/4" then 0 else if r = "1/3" then 1 else if r = "1/2" then 2 else 3
  /-- `KBCH_TABLE` of 40_resolver.md R66; 0 where there is no entry. -/
  kbchTable : FrameClass → RateId → Nat := fun c r =>
    match c with
    | .normal => if r = "1/4" then 16008 else if r = "1/3" then 1 else 0
    | .short => if r = "1/4" then 3072 else if r = "1/2" then 7032 else if r = "1/3" then 2 else 0
    | .medium => if r = "1/5" then 5660 else if r = "1/4" then 1 else if r = "1/3" then 1 else 0
  /-- R6: `2^KW > MAX_SEQUENCE_LENGTH`. -/
  length_lt_pow : extraLength + 16008 < 2 ^ kw := by decide
  /-- R6: `KW <= 28` by the command encoding. -/
  kw_le : kw ≤ 28 := by decide
  /-- `RateId` is a set: no identifier is listed twice. -/
  rateIds_nodup : rateIds.Nodup := by decide
  /-- R6: the four identifiers the source writes belong to `RateId`. -/
  rateIds_named : "1/4" ∈ rateIds ∧ "1/3" ∈ rateIds ∧ "1/2" ∈ rateIds ∧ "1/5" ∈ rateIds := by decide
  /-- 30_encoding.md R57: `RateCode` is injective on `RateId`. -/
  rateCode_injective :
    ∀ r ∈ rateIds, ∀ r' ∈ rateIds, rateCode r = rateCode r' → r = r' := by decide
  /-- 40_resolver.md R66: an identifier that is not in `RateId` has no entry. -/
  kbchTable_outside : ∀ c r, r ∉ rateIds → kbchTable c r = 0 := by
    intro c r h
    simp only [List.mem_cons, List.not_mem_nil, or_false, not_or] at h
    cases c <;> simp [h]
  /-- 40_resolver.md R70: the four entries the source prints. -/
  kbchTable_printed :
    kbchTable .normal "1/4" = 16008 ∧ kbchTable .short "1/4" = 3072 ∧
      kbchTable .medium "1/5" = 5660 ∧ kbchTable .short "1/2" = 7032 := by decide
  /-- 40_resolver.md R69: "1/3" has an entry in NORMAL and in SHORT, and the two differ. -/
  kbchTable_third :
    kbchTable .normal "1/3" ≠ 0 ∧ kbchTable .short "1/3" ≠ 0 ∧
      kbchTable .normal "1/3" ≠ kbchTable .short "1/3" := by decide
  /-- 40_resolver.md R66: MEDIUM has exactly 3 entries. -/
  medium_entries : (rateIds.filter (fun r => kbchTable .medium r != 0)).length = 3 := by decide
  /-- 40_resolver.md R71: no entry is above `MAX_SEQUENCE_LENGTH`. -/
  kbchTable_le : ∀ c r, kbchTable c r ≤ extraLength + 16008 := by
    intro c r
    cases c <;> dsimp only <;> split_ifs <;> decide
  /-- 40_resolver.md R71: `MAX_SEQUENCE_LENGTH` is the largest value in the NORMAL sub-table. -/
  kbchTable_max : ∃ r, kbchTable .normal r = extraLength + 16008 := by exact ⟨"1/4", rfl⟩
  deriving Inhabited

/-- The parameters of this machine: some values that meet the constraints, and nothing more is known
of them (notes/assumptions/1.md, 2.md). -/
opaque Config.params : Params

/-- `MAX_SEQUENCE_LENGTH`, the length of the sequence table (00_scope.md R6). -/
@[irreducible] def Config.maxSequenceLength : Nat := Config.params.extraLength + 16008

/-- FREE VALUE. What `sr` holds after the reset event numbered `n` (10_state.md R26 and
93_implementation_defined.md U9: any value; notes/assumptions/4.md). -/
opaque Config.resetSr : (n : Nat) → ShiftReg

/-- FREE VALUE. Element `t` of the buffer `IN` the harness bound to the operation numbered `n`, where the
request does not list it (notes/assumptions/5.md). -/
opaque Config.unlistedInput : (n t : Nat) → Bit

end Sys2Proof
end

