-- ==== Sys2Proof/Machine/Operands.lean ====
section
/-! DEFINITION. The operand of `RESOLVE` as a rate identifier, the table lookup (40_resolver.md R66, R68),
and the response words (30_encoding.md R52). -/

namespace Sys2Proof.Machine

/-- The rate identifier whose `RateCode` is the given code, if there is one (30_encoding.md R57). -/
def rateOfCode (rate : BitVec 8) : Option RateId :=
  Config.params.rateIds.find? fun r => Config.params.rateCode r == rate

/-- `KBCH_TABLE(cls, rate)`: select the sub-table by the class, look the rate up in it, and give 0 where
there is no entry, also for a code of no identifier (40_resolver.md R66, R68). -/
def kbchOf (cls : FrameClass) (rate : BitVec 8) : Nat :=
  match rateOfCode rate with
  | some r => Config.params.kbchTable cls r
  | none => 0

/-- The code of a fault in `RSP` bits 31:30 (60_exceptions.md R110). -/
def CoreFault.code : CoreFault → BitVec 2
  | .configurationError => 1
  | .misalignedInput => 2
  | .illegalOperation => 3

/-- The response `OK v` (30_encoding.md R52): fault 0 and the zero field above the value. -/
def okWord (v : BitVec 28) : Word32 := v.setWidth 32

/-- The response of a fault (30_encoding.md R52): its code, the zero field, value 0. -/
def faultWord (f : CoreFault) : Word32 := f.code ++ 0#30

/-- `RSP` bits 31:30 (30_encoding.md R52). -/
def rspFault (rsp : Word32) : BitVec 2 := rsp.extractLsb' 30 2

/-- `RSP` bits 29:28, always 0 (30_encoding.md R52). -/
def rspZero (rsp : Word32) : BitVec 2 := rsp.extractLsb' 28 2

/-- `RSP` bits 27:0 (30_encoding.md R52). -/
def rspValue (rsp : Word32) : BitVec 28 := rsp.extractLsb' 0 28

end Sys2Proof.Machine
end

