-- ==== Sys2Proof/Machine/Ops.lean ====
section
/-! DEFINITION. The named operations: `MemRead` and `MemWrite` of 20_memory.md R45, responding, raising
a fault (60_exceptions.md R113; there is no return from one, R118), completing a move of the harness, the
reset event (70_reset_and_hazards.md R130). -/

namespace Sys2Proof.Machine

/-- What an index of `SEQ` holds: a bit, or nothing where the entry is unwritten (10_state.md R15). -/
def Memory.read : Memory → Nat → Option Bit
  | [], _ => none
  | (a, b) :: m, t => if a = t then some b else Memory.read m t

/-- Make entry `t` hold `b` (`MemWrite` of 20_memory.md R45), keeping the indices rising. -/
def Memory.write : Memory → Nat → Bit → Memory
  | [], t, b => [(t, b)]
  | (a, c) :: m, t, b =>
      if t < a then (t, b) :: (a, c) :: m
      else if t = a then (t, b) :: m
      else (a, c) :: Memory.write m t b

/-- `MemRead(SEQ, t, 1)` (20_memory.md R45): in range and written, or a stop (out of range, the
model's choice: DEDUCED, notes/assumptions/9.md). -/
def readSeq (e : Engine) (t : Nat) : Except Fault Bit :=
  if t < Config.maxSequenceLength then
    match Memory.read e.seq t with
    | some b => .ok b
    | none => .error .unwrittenEntry
  else .error .seqIndexOutOfRange

/-- The listed elements of the buffer `IN` that is bound to the operation in progress, which is the move at
the head of `requests` (20_memory.md R37). -/
def State.boundInput (s : State) : List Bit :=
  match s.requests with
  | .command _ input :: _ => input
  | _ => []

/-- `MemRead(IN, t, 1)` (20_memory.md R45): the caller's bit, which is a free value where the request did
not list it (notes/assumptions/5.md). -/
def readIn (s : State) (t : Nat) : Bit :=
  match s.boundInput[t]? with
  | some b => b
  | none => Config.unlistedInput s.fresh t

/-- `respond(v)`: the operation ends without fault (00_scope.md section 5), having written `out`. -/
def State.respond (s : State) (v : BitVec 28) (out : List Bit) : State :=
  { s with reply := some { rsp := okWord v, out := out } }

/-- `raise <Fault>()` (60_exceptions.md R113): the sticky bit is set, the response carries the code and
value 0, no element of `OUT` is written, and nothing else changes. -/
def State.raise (s : State) (f : CoreFault) : State :=
  { s.stick f with reply := some { rsp := faultWord f, out := [] } }

/-- A move of the harness is over: it is dropped with its word and its buffer, to which no reference is kept
(20_memory.md R37, 10_state.md R22), and the next one is to come. -/
def State.complete (s : State) : State :=
  { s with requests := s.requests.tail, fresh := s.fresh + 1 }

/-- Complete the move an operation was the meaning of, where the operation has a next state. -/
def completing : Host.Outcome State Fault Refusal → Host.Outcome State Fault Refusal
  | .next t => .next t.complete
  | .fault f => .fault f
  | .refused r => .refused r

/-- The reset event (70_reset_and_hazards.md R130): every piece of the engine's state takes its reset value,
`sr` a free one (10_state.md R26), and there is no response. The port and the counter are not the engine's. -/
def State.resetEvent (s : State) : State :=
  { State.reset with
    sr := Config.resetSr s.fresh
    requests := s.requests
    fresh := s.fresh }

/-- A reserved command word raises `IllegalOperation` in every lifecycle state (30_encoding.md R58,
60_exceptions.md R114 a). -/
def execReserved (_why : Reserved) (s : State) : Host.Outcome State Fault Refusal :=
  .next (s.raise .illegalOperation)

/-- Nothing is issued: the engine is idle and holds its state (60_exceptions.md R126), and nothing is
answered. -/
def idle (s : State) : Host.Outcome State Fault Refusal := .next { s with reply := none }

end Sys2Proof.Machine
end

