-- ==== Sys2Proof/Machine/Descrambler.lean ====
section
/-! DEFINITION. The synchronized XOR descrambler: `XorBit` and `PROC` (42_descrambler.md). -/

namespace Sys2Proof.Machine

/-- `XorBit(d, s) = d XOR s` (42_descrambler.md R90, R92). -/
def xorBit (d s : Bit) : Bit := d ^^ s

/-- The inner loop of 42_descrambler.md R91 on the engine `e` and the buffer `input`, which is a parameter of
the call (10_state.md R22): `n` more bits of the frame that starts at `i`, from the intra-frame offset `j`;
the output elements `OUT[i + j] ..` in ascending order. -/
def procBits (e : Engine) (input : Nat → Bit) (i : Nat) : (n j : Nat) → Except Fault (List Bit)
  | 0, _ => .ok []
  | n + 1, j =>
      match readSeq e j with
      | .error f => .error f
      | .ok b =>
          match procBits e input i n (j + 1) with
          | .error f => .error f
          | .ok out => .ok (xorBit (input (i + j)) b :: out)

/-- The outer loop of 42_descrambler.md R91: `frames` more frames of `kbch` bits from the frame start
offset `i`; every frame reads the table from index 0 again. -/
def procFrames (e : Engine) (input : Nat → Bit) : (frames i : Nat) → Except Fault (List Bit)
  | 0, _ => .ok []
  | f + 1, i =>
      match procBits e input i e.kbch 0 with
      | .error fault => .error fault
      | .ok out =>
          match procFrames e input f (i + e.kbch) with
          | .error fault => .error fault
          | .ok more => .ok (out ++ more)

/-- `PROC N` (42_descrambler.md R91): admission, then the entry check on `N` (R93), then `N / kbch` frames
of `kbch` bits (70_reset_and_hazards.md R142). A zero `kbch` never reaches it (R102); that
it would stop is the model's choice (DEDUCED, notes/assumptions/9.md). -/
def execProc (n : Nat) (s : State) : Host.Outcome State Fault Refusal :=
  if s.mode ≠ .ready then .next (s.raise .illegalOperation)
  else if s.kbch = 0 then .fault .zeroFrameLength
  else if n % s.kbch ≠ 0 then .next (s.raise .misalignedInput)
  else
    match procFrames s.toEngine (readIn s) (n / s.kbch) 0 with
    | .error f => .fault f
    | .ok out => .next (s.respond (BitVec.ofNat 28 n) out)

end Sys2Proof.Machine
end

