-- ==== Sys2Proof/Machine/Generator.lean ====
section
/-! DEFINITION. The sequence generator: `GenStep`, the sequences `S` and `G`, the table, and `INIT`
(41_generator.md). -/

namespace Sys2Proof.Machine

/-- `SEED` (00_scope.md R5, 30_encoding.md R62). -/
def seed : ShiftReg := 0x4A80#15

/-- The feedback mask, bit 14 alone (30_encoding.md R62). -/
def feedbackMask : ShiftReg := 0x4000#15

/-- The output mask, bit 0 alone (30_encoding.md R62). -/
def outputMask : ShiftReg := 1#15

/-- The output bit of a step: `(sr XOR (sr >> 1)) AND 1` (41_generator.md R75, step 1). -/
def genBit (sr : ShiftReg) : Bit := ((sr ^^^ (sr >>> 1)) &&& outputMask) == 1#15

/-- The next shift register: shift right by 1, and set bit 14 if the output bit is 1 (41_generator.md
R75, steps 3 and 4). -/
def genNext (sr : ShiftReg) : ShiftReg :=
  if genBit sr then (sr >>> 1) ||| feedbackMask else sr >>> 1

/-- `GenStep : sr -> (b, sr')` (41_generator.md R75). -/
def genStep (sr : ShiftReg) : Bit × ShiftReg := (genBit sr, genNext sr)

/-- `sr` after `n` steps from `sr`. -/
def genIter : Nat → ShiftReg → ShiftReg
  | 0, sr => sr
  | n + 1, sr => genIter n (genStep sr).2

/-- `S(t)` of 41_generator.md R78: the value of `sr` before the step that produces entry `t`. -/
@[irreducible] def lfsrState (t : Nat) : ShiftReg := genIter t seed

/-- `G(t)` of 41_generator.md R78: the bit the LFSR produces at position `t`. -/
def lfsrBit (t : Nat) : Bit := (genStep (lfsrState t)).1

/-- The generation loop of 41_generator.md R76 as it stands there: `n` more steps from position `gi`, each
writing one entry of `SEQ` in ascending order. -/
def generateLoop : (n gi : Nat) → ShiftReg → Memory → Memory × ShiftReg
  | 0, _, sr, m => (m, sr)
  | n + 1, gi, sr, m =>
      generateLoop n (gi + 1) (genStep sr).2 (Memory.write m gi (genStep sr).1)

/-- The entries `gi .. gi + n - 1` that the loop writes, in ascending order. -/
def tableCells : (n gi : Nat) → ShiftReg → Memory
  | 0, _, _ => []
  | n + 1, gi, sr => (gi, (genStep sr).1) :: tableCells n (gi + 1) (genStep sr).2

/-- The table after the full-length generation (41_generator.md R77): entries `0 .. MAX_SEQUENCE_LENGTH - 1`
are the generated ones; an entry above them, which only a state no run reaches has, is not written.
This is `generateLoop`'s result in a form that can be read entry by entry (notes/assumptions/12.md). -/
def generateTable (m : Memory) : Memory :=
  tableCells Config.maxSequenceLength 0 seed ++
    m.filter fun x => decide (Config.maxSequenceLength ≤ x.1)

/-- `INIT k` (41_generator.md R76): admission, then the range check, then latch `k`, generate the whole
table and become Ready. -/
def execInit (k : Nat) (s : State) : Host.Outcome State Fault Refusal :=
  if s.mode = .ready ∨ s.cfgErr = true then .next (s.raise .illegalOperation)
  else if k = 0 ∨ Config.maxSequenceLength < k then .next (s.raise .configurationError)
  else
    .next
      (State.respond
        { s with
          kbch := k
          sr := lfsrState Config.maxSequenceLength
          seq := generateTable s.seq
          mode := .ready }
        (BitVec.ofNat 28 k) [])

end Sys2Proof.Machine
end

