-- ==== Sys2Proof/Machine/Readout.lean ====
section
/-! DEFINITION. Reading the granularity and the status: `RDK` and `RDSTAT` (43_status.md). -/

namespace Sys2Proof.Machine

/-- `RDK` (43_status.md R105): the declared processing granularity of a Ready engine. -/
def execRdk (s : State) : Host.Outcome State Fault Refusal :=
  if s.mode ≠ .ready then .next (s.raise .illegalOperation)
  else .next (s.respond (BitVec.ofNat 28 s.kbch) [])

/-- `RDSTAT` (43_status.md R106): the register `STATUS`, in every lifecycle state; it clears nothing. -/
def execRdstat (s : State) : Host.Outcome State Fault Refusal :=
  .next (s.respond s.status [])

end Sys2Proof.Machine
end

