-- ==== Sys2Proof/Machine/Resolver.lean ====
section
/-! DEFINITION. The Frame Length Resolver: `RESOLVE` (40_resolver.md). -/

namespace Sys2Proof.Machine

/-- `RESOLVE std, cls, rate` (40_resolver.md R65): the table's value, 0 for an unmapped pair, which is
no fault (R68); `std` takes no part (R67). -/
def execResolve (_std : Standard) (cls : FrameClass) (rate : BitVec 8) (s : State) :
    Host.Outcome State Fault Refusal :=
  .next (s.respond (BitVec.ofNat 28 (kbchOf cls rate)) [])

end Sys2Proof.Machine
end

