-- ==== Sys2Proof/Machine/Dispatch.lean ====
section
/-! DEFINITION. The meaning of each operation of 30_encoding.md R50, one arm per constructor. -/

namespace Sys2Proof.Machine

def exec (i : Instr) (s : State) : Host.Outcome State Fault Refusal :=
  match i with
  | .init k => Sys2Proof.Machine.execInit k s
  | .proc n => Sys2Proof.Machine.execProc n s
  | .rdk => Sys2Proof.Machine.execRdk s
  | .rdstat => Sys2Proof.Machine.execRdstat s
  | .resolve std cls rate => Sys2Proof.Machine.execResolve std cls rate s

end Sys2Proof.Machine
end

