-- ==== Sys2Proof/Machine/Step.lean ====
section
/-! DEFINITION. One step: the next move of the harness (70_reset_and_hazards.md R145), taken whole before
the one after it is looked at (00_scope.md R8, 20_memory.md R39), and dropped when it is over. -/

namespace Sys2Proof.Machine

/-- One step of the machine: idle where the harness issues nothing, the reset event (R130), or one
operation; a reserved word raises `IllegalOperation` (30_encoding.md R58). -/
def step (s : State) : Host.Outcome State Fault Refusal :=
  match s.requests with
  | [] => idle s
  | .reset :: _ => completing (.next s.resetEvent)
  | .command w _ :: _ =>
      match decode w with
      | .ok i => completing (exec i s)
      | .error why => completing (execReserved why s)

/-- The state in which the harness issues the given instruction next: it heads the queue, with no element
of `IN` listed (notes/assumptions/6.md). -/
def State.withFetchWord (s : State) (nbits w : Nat) : State :=
  { s with requests := .command (tableWord nbits w) [] :: s.requests }

end Sys2Proof.Machine
end

