-- ==== Sys2Proof/Machine/Harness.lean ====
section
/-! DEFINITION. The harness's side: issuing one operation, a run (70_reset_and_hazards.md R143), the
pseudo-operations of 30_encoding.md R61 and the written form of R60. -/

namespace Sys2Proof.Machine

/-- `DESCRAMBLE N` is `PROC N` (30_encoding.md R61). -/
def descramble (n : Nat) : Instr := .proc n

/-- `SCRAMBLE N` is `PROC N` (30_encoding.md R61, 42_descrambler.md R101). -/
def scramble (n : Nat) : Instr := .proc n

/-- The harness issues the operation next, with the buffer `input` bound to it. -/
def State.issuing (s : State) (i : Instr) (input : List Bit) : State :=
  { s with requests := .command (encode i) input :: s.requests }

/-- One operation from its issue to its end: what `step` does with the word that spells it. -/
def perform (i : Instr) (input : List Bit) (s : State) : Host.Outcome State Fault Refusal :=
  completing (exec i (s.issuing i input))

/-- A run (70_reset_and_hazards.md R143): the harness makes the moves one after the other. The result is the
state left behind and the list of the responses, oldest first, each with its `OUT`; the list is the
harness's, no state holds it. -/
def run : List Request → State → Host.Outcome (State × List Reply) Fault Refusal
  | [], s => .next (s, [])
  | move :: moves, s =>
      match step { s with requests := move :: s.requests } with
      | .fault f => .fault f
      | .refused r => .refused r
      | .next t =>
          match run moves t with
          | .fault f => .fault f
          | .refused r => .refused r
          | .next (u, replies) => .next (u, t.reply.toList ++ replies)

/-- The value of the response, 0 where there is none. -/
def State.lastValue (s : State) : Nat :=
  match s.reply with
  | some r => (rspValue r.rsp).toNat
  | none => 0

/-- `CONSTRUCT std, cls, rate` (30_encoding.md R61, 40_resolver.md R72): `RESOLVE std, cls, rate -> OK v`,
then `INIT v`; the state left behind and the two responses. -/
def construct (std : Standard) (cls : FrameClass) (rate : BitVec 8) (s : State) :
    Host.Outcome (State × List Reply) Fault Refusal :=
  match perform (.resolve std cls rate) [] s with
  | .fault f => .fault f
  | .refused r => .refused r
  | .next t =>
      match perform (.init t.lastValue) [] t with
      | .fault f => .fault f
      | .refused r => .refused r
      | .next u => .next (u, t.reply.toList ++ u.reply.toList)

/-- A standard variant as written (30_encoding.md R60). -/
def Standard.written : Standard → String
  | .a => "A"
  | .b => "B"

/-- A frame-size class as written (30_encoding.md R60). -/
def FrameClass.written : FrameClass → String
  | .normal => "NORMAL"
  | .short => "SHORT"
  | .medium => "MEDIUM"

/-- An operation as written (30_encoding.md R60): the mnemonic, then the operands separated by commas. A
rate code of no identifier has no written form (notes/assumptions/16.md). -/
def Instr.written : Instr → Option String
  | .init k => some ("INIT " ++ toString k)
  | .proc n => some ("PROC " ++ toString n)
  | .rdk => some "RDK"
  | .rdstat => some "RDSTAT"
  | .resolve std cls rate =>
      (rateOfCode rate).map fun r =>
        "RESOLVE " ++ Standard.written std ++ ", " ++ FrameClass.written cls ++ ", \"" ++ r ++ "\""

/-- A response as written (30_encoding.md R60): `-> OK v`, or `->` and the fault's name. -/
def writtenResponse (rsp : Word32) : String :=
  match (rspFault rsp).toNat with
  | 0 => "-> OK " ++ toString (rspValue rsp).toNat
  | 1 => "-> ConfigurationError"
  | 2 => "-> MisalignedInput"
  | _ => "-> IllegalOperation"

end Sys2Proof.Machine
end

