-- ==== Sys2Proof/Safety.lean ====
section
/-! DEFINITION. What claims are stated in: the named start conditions of 70_reset_and_hazards.md R146,
the admission table (60_exceptions.md R121), the lifecycle invariant, and when a run has gone wrong (R143). -/

namespace Sys2Proof.Machine

/-- `FreshReset` of 70_reset_and_hazards.md R146; `sr` is arbitrary. -/
def FreshReset (s : State) : Prop :=
  s.mode = .uninitialized ∧ s.kbch = 0 ∧ s.seq = [] ∧
    s.cfgErr = false ∧ s.callErr = false ∧ s.opErr = false

/-- `ReadyWith(k)` of 70_reset_and_hazards.md R146. -/
def ReadyWith (k : Nat) (s : State) : Prop :=
  s.mode = .ready ∧ s.kbch = k ∧ 1 ≤ k ∧ k ≤ Config.maxSequenceLength ∧
    (∀ t, t < Config.maxSequenceLength → Memory.read s.seq t = some (lfsrBit t)) ∧
    s.ready = true ∧ s.cfgErr = false

/-- `NoFaultRecorded` of 70_reset_and_hazards.md R146. -/
def NoFaultRecorded (s : State) : Prop := s.errorRecorded = false

/-- `FailedConstruction` of 70_reset_and_hazards.md R146. -/
def FailedConstruction (s : State) : Prop := s.mode = .uninitialized ∧ s.cfgErr = true

/-- The admission table of 60_exceptions.md R121. -/
def Admitted (s : State) : Instr → Prop
  | .resolve _ _ _ => True
  | .init _ => s.mode = .uninitialized ∧ s.cfgErr = false
  | .proc _ => s.mode = .ready
  | .rdk => s.mode = .ready
  | .rdstat => True

/-- The lifecycle invariant: what 70_reset_and_hazards.md R146 says of every state reachable from
`FreshReset`, with the table in its canonical form and within `SEQ` (20_memory.md R30), and `kbch` at its
reset value while Uninitialized (10_state.md R12). -/
def LifecycleInv (s : State) : Prop :=
  Memory.wf s.seq ∧ (∀ x ∈ s.seq, x.1 < Config.maxSequenceLength) ∧
    ((s.mode = .uninitialized ∧ s.kbch = 0 ∧ s.seq = []) ∨
      (∃ k, ReadyWith k s ∧ s.sr = lfsrState Config.maxSequenceLength))

/-- The form of a response (30_encoding.md R52) and of the `OUT` that accompanies it (42_descrambler.md
R95, 20_memory.md R45). -/
def ReplyWellFormed (r : Reply) : Prop :=
  rspZero r.rsp = 0 ∧
    (rspFault r.rsp ≠ 0 → rspValue r.rsp = 0 ∧ r.out = []) ∧
    (r.out = [] ∨ r.out.length = (rspValue r.rsp).toNat)

/-- A run with these responses has gone wrong: some response carries a nonzero fault code
(70_reset_and_hazards.md R143). -/
def RunWentWrong (replies : List Reply) : Prop := ∃ r ∈ replies, rspFault r.rsp ≠ 0

/-- The two ways R143 names of telling that a run has gone wrong agree, for the responses the harness got since
the run began and the state the run has reached. -/
def RunRecordAgrees (replies : List Reply) (s : State) : Prop :=
  RunWentWrong replies ↔ s.errorRecorded = true

/-- The next move of the harness is not the reset event. -/
def NoResetNext (s : State) : Prop := ∀ rest, s.requests ≠ .reset :: rest

/-- The two states agree on everything the harness can tell them apart by (10_state.md R24, 43_status.md
R107): on all but `sr` and the table entries outside the window `seq[0 .. kbch)` of a Ready engine. -/
def SameToHarness (s t : State) : Prop :=
  t = { s with sr := t.sr, seq := t.seq } ∧
    (s.mode = .ready → ∀ j, j < s.kbch → Memory.read s.seq j = Memory.read t.seq j)

end Sys2Proof.Machine
end

