-- ==== Sys2Proof/Certificates/Slice0/Obligations.lean ====
section
/-! DEFINITION. The statements for the provers. A state after an operation is written out as a record over
the state before it, so that every field that is not named is unchanged. -/

open Sys2Proof Sys2Proof.Machine

/-! ## Encoding and stepping -/

/-- 30_encoding.md R63: decoding by fields, the encoder's words, and `decode (encode i) = i` for every
operation whose operands fit their fields. -/
def Obligations.DecodeAndEncodeAgree : Prop :=
  (∀ i : Instr, i.wellFormed = true → decode (encode i) = .ok i) ∧
  (∀ w : Word32,
    let op := w.extractLsb' 28 4
    let arg := w.extractLsb' 0 28
    (op = 1#4 → decode w = .ok (.init arg.toNat)) ∧
    (op = 2#4 → decode w = .ok (.proc arg.toNat)) ∧
    (op = 3#4 → arg = 0 → decode w = .ok .rdk) ∧
    (op = 4#4 → arg = 0 → decode w = .ok .rdstat) ∧
    (op = 5#4 → arg.extractLsb' 11 17 = 0 → arg.extractLsb' 8 2 ≠ 3#2 →
      ∀ std cls, arg.getLsbD 10 = decide (std = Standard.b) →
        arg.extractLsb' 8 2 =
          (match cls with | FrameClass.normal => 0#2 | .short => 1#2 | .medium => 2#2) →
        decode w = .ok (.resolve std cls (arg.extractLsb' 0 8))) ∧
    (¬(op = 1#4 ∨ op = 2#4 ∨ (op = 3#4 ∧ arg = 0) ∨ (op = 4#4 ∧ arg = 0) ∨
        (op = 5#4 ∧ arg.extractLsb' 11 17 = 0 ∧ arg.extractLsb' 8 2 ≠ 3#2)) →
      ∃ why, decode w = .error why)) ∧
  (∀ k, encode (.init k) = 0x10000000#32 ||| BitVec.ofNat 32 k) ∧
  (∀ n, encode (.proc n) = 0x20000000#32 ||| BitVec.ofNat 32 n) ∧
  encode .rdk = 0x30000000#32 ∧ encode .rdstat = 0x40000000#32 ∧
  (∀ std cls (rate : BitVec 8), encode (.resolve std cls rate) =
    0x50000000#32 |||
      ((match std with | Standard.a => 0#32 | .b => 1#32 : Word32) <<< 10) |||
      ((match cls with | FrameClass.normal => 0#32 | .short => 1#32 | .medium => 2#32 : Word32) <<< 8) |||
      rate.setWidth 32)

/-- The other direction of the round trip (30_encoding.md section 5): a word that decodes is the word of
the operation it decodes to, and that operation's operands fit their fields. -/
def Obligations.EncodeOfDecodedWord : Prop :=
  ∀ (w : Word32) (i : Instr), decode w = .ok i → i.wellFormed = true ∧ encode i = w

/-- 30_encoding.md R53: which words spell an operation, which row each operation is in, that no two rows
match the same word, and that the all-zero word is reserved. -/
def Obligations.OpcodeMapSpellsOperations : Prop :=
  (∀ w : Word32, (∃ i, decode w = .ok i) ↔
    ((w &&& 0xF0000000#32 = 0x10000000#32) ∨ (w &&& 0xF0000000#32 = 0x20000000#32) ∨
      (w &&& 0xFFFFFFFF#32 = 0x30000000#32) ∨ (w &&& 0xFFFFFFFF#32 = 0x40000000#32) ∨
      (w &&& 0xFFFFF800#32 = 0x50000000#32 ∧ w.extractLsb' 8 2 ≠ 3#2))) ∧
  (∀ (w : Word32) (i : Instr), decode w = .ok i → w &&& i.rowMask = i.rowMatch) ∧
  opcodeRows.Pairwise (fun r r' => ∀ w : Word32, ¬(w &&& r.2 = r.1 ∧ w &&& r'.2 = r'.1)) ∧
  (∃ why, decode 0#32 = .error why)

/-- The words of 95_test_vectors.md section 8 (sanity). -/
def Obligations.DecodeOfFixedWords : Prop :=
  decode 0x10001B78#32 = .ok (.init 7032) ∧
  decode 0x200036F0#32 = .ok (.proc 14064) ∧
  decode 0x30000000#32 = .ok .rdk ∧
  decode 0x40000000#32 = .ok .rdstat ∧
  decode 0x500006FF#32 = .ok (.resolve .b .medium 255) ∧
  decode 0x50000300#32 = .error .resolveClass ∧
  decode 0x50000800#32 = .error .resolveZeroField ∧
  decode 0x30000001#32 = .error .nonzeroArg ∧
  decode 0x00000000#32 = .error .opcode ∧
  decode 0xF0000000#32 = .error .opcode

/-- 30_encoding.md R58: a reserved word raises `IllegalOperation` in every state and changes no state but
`STATUS.OP_ERR` (the move of the harness is over, and the response is given). -/
def Obligations.ReservedWordRaisesIllegalOperation : Prop :=
  ∀ (s : State) (w : Word32) (input : List Bit) (rest : List Request),
    s.requests = .command w input :: rest →
    (w.extractLsb' 28 4 = 0#4 ∨ 6#4 ≤ w.extractLsb' 28 4 ∨
      ((w.extractLsb' 28 4 = 3#4 ∨ w.extractLsb' 28 4 = 4#4) ∧ w.extractLsb' 0 28 ≠ 0) ∨
      (w.extractLsb' 28 4 = 5#4 ∧ (w.extractLsb' 11 17 ≠ 0 ∨ w.extractLsb' 8 2 = 3#2))) →
    step s =
      .next
        { s with
          opErr := true
          requests := rest
          fresh := s.fresh + 1
          reply := some { rsp := 0xC0000000#32, out := [] } }

/-- A step runs the decoded operation: where the word at the head of the queue spells `i`, the step is `exec i`
of the state, with the buffer of that move as `IN`; after it the move is dropped, word and buffer, and the
counter of completed moves advances. Where `exec` stops, the step stops alike. -/
def Obligations.StepRunsDecodedOperation : Prop :=
  ∀ (s : State) (w : Word32) (input : List Bit) (rest : List Request) (i : Instr),
    s.requests = .command w input :: rest → decode w = .ok i →
    s.boundInput = input ∧
    step s =
      match exec i s with
      | .next t => .next { t with requests := rest, fresh := s.fresh + 1 }
      | .fault f => .fault f
      | .refused r => .refused r

/-- The same of a word placed by withFetchWord: what the decoder reads from the table's bits is what the
very next step runs, and the queue is then as it was before the word was placed. -/
def Obligations.FetchWordRunsTableWord : Prop :=
  ∀ (s : State) (nbits w : Nat) (i : Instr), decodeTableWord nbits w = some i →
    step (s.withFetchWord nbits w) =
      match exec i (s.withFetchWord nbits w) with
      | .next t => .next { t with requests := s.requests, fresh := s.fresh + 1 }
      | .fault f => .fault f
      | .refused r => .refused r

/-- Issuing an operation is placing the word that spells it: `perform`, in which the statements about calls of
the harness are made, is the step on that word, for every operation whose operands fit their fields. -/
def Obligations.PerformIsStep : Prop :=
  ∀ (i : Instr) (input : List Bit) (s : State), i.wellFormed = true →
    step (s.issuing i input) = perform i input s

/-- 10_state.md R22: what an operation does to the engine, and what it answers, is a function of the engine and
of the parameters of the step alone, which are the operation and the bits of `IN`. Two states that agree on
the engine and on `IN` may differ in all else, the response of an earlier call and the moves to come among
it. -/
def Obligations.OperationsDependOnParametersOnly : Prop :=
  ∀ (i : Instr) (s s' : State), s'.toEngine = s.toEngine → (∀ t, readIn s' t = readIn s t) →
    (∀ t, exec i s = .next t →
      ∃ t', exec i s' = .next t' ∧ t'.toEngine = t.toEngine ∧ t'.reply = t.reply) ∧
    (∀ f, exec i s = .fault f → exec i s' = .fault f)

/-- 10_state.md R22, from one step to the next: after a step that takes a move of the harness nothing of the
move is left, neither its word nor its buffer, and no response but the one the step itself gave, none for the
reset event. So of two states with the same engine and the same move at the head (and the same counter, on
which the free values rest), whatever else they hold, the step leaves the same engine and the same response. -/
def Obligations.CallsLeaveNoTrace : Prop :=
  ∀ (s s' : State) (move : Request) (rest rest' : List Request),
    s'.toEngine = s.toEngine → s'.fresh = s.fresh →
    s.requests = move :: rest → s'.requests = move :: rest' →
    (∀ t, step s = .next t →
      t.requests = rest ∧ (t.reply = none ↔ move = .reset) ∧
      step s' = .next { t with requests := rest' }) ∧
    (∀ f, step s = .fault f → step s' = .fault f)

/-- The engine is idle and holds its state between operations (60_exceptions.md section 6); that such a step
answers nothing and leaves the rest of the model state alone is the model's choice (notes/assumptions/6.md,
notes/assumptions/8.md). -/
def Obligations.IdleStepHoldsState : Prop :=
  ∀ s : State, s.requests = [] → step s = .next { s with reply := none }

/-! ## The resolver -/

/-- `RESOLVE` answers the table's entry for the class and the identifier, in every state, and changes
nothing (40_resolver.md section 1). -/
def Obligations.ResolveAnswersTableEntry : Prop :=
  ∀ (s : State) (std : Standard) (cls : FrameClass) (r : RateId), r ∈ Config.params.rateIds →
    exec (.resolve std cls (Config.params.rateCode r)) s =
      .next
        { s with
          reply := some
            { rsp := (BitVec.ofNat 28 (Config.params.kbchTable cls r)).setWidth 32, out := [] } }

/-- 40_resolver.md R68: an unmapped pair, a code of no identifier among them, answers `OK 0` and is no
fault; the `INIT 0` that follows raises `ConfigurationError`. -/
def Obligations.ResolveUnmappedAnswersZero : Prop :=
  ∀ (s : State) (std : Standard) (cls : FrameClass) (rate : BitVec 8),
    (∀ r ∈ Config.params.rateIds, Config.params.rateCode r = rate → Config.params.kbchTable cls r = 0) →
    exec (.resolve std cls rate) s =
        .next { s with reply := some { rsp := 0#32, out := [] } } ∧
    (s.mode = .uninitialized → s.cfgErr = false →
      exec (.init 0) { s with reply := some { rsp := 0#32, out := [] } } =
        .next { s with cfgErr := true, reply := some { rsp := 0x40000000#32, out := [] } })

/-- 40_resolver.md R67: the standard variant does not take part in the lookup. -/
def Obligations.ResolveIgnoresStandard : Prop :=
  ∀ (s : State) (cls : FrameClass) (rate : BitVec 8),
    exec (.resolve .a cls rate) s = exec (.resolve .b cls rate) s

/-- 40_resolver.md R70: the four entries the source prints, with the response words of 95_test_vectors.md
section 4. -/
def Obligations.ResolvePrintedEntries : Prop :=
  ∀ (s : State) (std : Standard),
    let answers := fun (cls : FrameClass) (r : RateId) (rsp : Word32) =>
      exec (.resolve std cls (Config.params.rateCode r)) s =
        .next { s with reply := some { rsp := rsp, out := [] } }
    answers .normal "1/4" 0x00003E88#32 ∧ answers .short "1/4" 0x00000C00#32 ∧
      answers .medium "1/5" 0x0000161C#32 ∧ answers .short "1/2" 0x00001B78#32

/-- 40_resolver.md R71: every entry is at most `MAX_SEQUENCE_LENGTH`, which is the largest NORMAL value,
and `INIT` never raises `ConfigurationError` for a nonzero value of the table. -/
def Obligations.ResolvedFrameLengthIsAccepted : Prop :=
  (∀ cls r, Config.params.kbchTable cls r ≤ Config.maxSequenceLength) ∧
  (∃ r ∈ Config.params.rateIds, Config.params.kbchTable .normal r = Config.maxSequenceLength) ∧
  (∀ (s : State) (cls : FrameClass) (r : RateId), Config.params.kbchTable cls r ≠ 0 →
    ∃ t reply, exec (.init (Config.params.kbchTable cls r)) s = .next t ∧
      t.reply = some reply ∧ rspFault reply.rsp ≠ 1#2 ∧ t.cfgErr = s.cfgErr)

/-- 40_resolver.md R72: the net effect of `CONSTRUCT` on a freshly reset instance, for a pair with an
entry and for one without. -/
def Obligations.ConstructNetEffect : Prop :=
  ∀ (s : State) (std : Standard) (cls : FrameClass) (rate : BitVec 8), FreshReset s →
    (∀ r ∈ Config.params.rateIds, Config.params.rateCode r = rate →
      Config.params.kbchTable cls r ≠ 0 →
      ∃ t, construct std cls rate s =
          .next (t,
            [{ rsp := (BitVec.ofNat 28 (Config.params.kbchTable cls r)).setWidth 32, out := [] },
             { rsp := (BitVec.ofNat 28 (Config.params.kbchTable cls r)).setWidth 32, out := [] }]) ∧
        ReadyWith (Config.params.kbchTable cls r) t) ∧
    ((∀ r ∈ Config.params.rateIds, Config.params.rateCode r = rate →
        Config.params.kbchTable cls r = 0) →
      construct std cls rate s =
        .next
          ({ s with
              cfgErr := true
              fresh := s.fresh + 2
              reply := some { rsp := 0x40000000#32, out := [] } },
            [{ rsp := 0#32, out := [] }, { rsp := 0x40000000#32, out := [] }]))

/-! ## The generator -/

/-- 41_generator.md R75: `GenStep` as the source's steps and bit by bit, with the corner cases and the
examples. -/
def Obligations.GenStepBits : Prop :=
  (∀ sr : ShiftReg,
    (genStep sr).1 = ((sr ^^^ (sr >>> 1)) &&& 1#15 == 1#15) ∧
    (genStep sr).2 = (if (genStep sr).1 then (sr >>> 1) ||| 0x4000#15 else sr >>> 1) ∧
    (genStep sr).1 = (sr.getLsbD 0 ^^ sr.getLsbD 1) ∧
    (genStep sr).2.getLsbD 14 = (sr.getLsbD 0 ^^ sr.getLsbD 1) ∧
    (∀ k, k < 14 → (genStep sr).2.getLsbD k = sr.getLsbD (k + 1))) ∧
  genStep 0x0000#15 = (false, 0x0000#15) ∧ genStep 0x7FFF#15 = (false, 0x3FFF#15) ∧
  genStep 0x0001#15 = (true, 0x4000#15) ∧ genStep 0x0002#15 = (true, 0x4001#15) ∧
  genStep 0x0003#15 = (false, 0x0001#15) ∧
  genStep 0x4A80#15 = (false, 0x2540#15) ∧ genStep 0x012A#15 = (true, 0x4095#15)

/-- 41_generator.md R79: the equivalent linear recurrence, with its fifteen starting values. -/
def Obligations.LfsrLinearRecurrence : Prop :=
  (∀ a : Nat → Bit,
    (∀ k, k < 15 → a k = decide (k = 7 ∨ k = 9 ∨ k = 11 ∨ k = 14)) →
    (∀ t, a (t + 15) = (a t ^^ a (t + 1))) →
    ∀ t, (∀ k, k < 15 → (lfsrState t).getLsbD k = a (t + k)) ∧ lfsrBit t = a (t + 15)) ∧
  (∀ k, k < 15 → (0x4A80#15).getLsbD k = decide (k = 7 ∨ k = 9 ∨ k = 11 ∨ k = 14)) ∧
  (∀ t, lfsrBit (t + 15) = (lfsrBit t ^^ lfsrBit (t + 1))) ∧
  (List.range 15).map lfsrBit =
    [false, false, false, false, false, false, true, true, true, true, true, true, false, true, true]

/-- The period of the register and of the output, the values the register takes, the ones and zeros of a
period, and that the sequence repeats its own beginning (41_generator.md section 3). -/
def Obligations.SequencePeriod : Prop :=
  lfsrState 32767 = 0x4A80#15 ∧
  (∀ t, 0 < t → t < 32767 → lfsrState t ≠ 0x4A80#15) ∧
  (∀ t u, t < u → u < 32767 → lfsrState t ≠ lfsrState u) ∧
  (∀ x : ShiftReg, x ≠ 0 ↔ ∃ t, t < 32767 ∧ lfsrState t = x) ∧
  (∀ t, lfsrBit (t + 32767) = lfsrBit t) ∧
  (∀ p, 0 < p → p < 32767 → ∃ t, lfsrBit (t + p) ≠ lfsrBit t) ∧
  (List.range 32767).countP (fun t => lfsrBit t) = 16384 ∧
  (List.range 32767).countP (fun t => !lfsrBit t) = 16383 ∧
  (∀ t, 32767 ≤ t → lfsrBit t = lfsrBit (t - 32767))

/-- 41_generator.md R84: the register is never 0 during generation, and 0 is a fixed point of `GenStep`. -/
def Obligations.LfsrNeverZero : Prop :=
  genStep 0#15 = (false, 0#15) ∧ ∀ t, lfsrState t ≠ 0#15

/-- The register values 41_generator.md section 3 and 95_test_vectors.md section 3.2 give (sanity). -/
def Obligations.LfsrCheckpoints : Prop :=
  lfsrState 8 = 0x604A#15 ∧ lfsrState 16 = 0x37E0#15 ∧ lfsrState 3072 = 0x19D5#15 ∧
    lfsrState 5660 = 0x16EC#15 ∧ lfsrState 7032 = 0x550E#15 ∧ lfsrState 16008 = 0x4441#15

/-- 41_generator.md R78: `S` and `G` by their recursion, the first 64 values of `G`, and that a
successful `INIT` leaves `seq[t] = G(t)`. -/
def Obligations.SequenceAfterInitIsG : Prop :=
  lfsrState 0 = 0x4A80#15 ∧
  (∀ t, (lfsrBit t, lfsrState (t + 1)) = genStep (lfsrState t)) ∧
  (List.range 64).map (fun t => (lfsrBit t).toNat) =
    [0,0,0,0,0,0,1,1, 1,1,1,1,0,1,1,0, 0,0,0,0,1,0,0,0, 0,0,1,1,0,1,0,0,
     0,0,1,1,0,0,0,0, 1,0,1,1,1,0,0,0, 1,0,1,0,0,0,1,1, 1,0,0,1,0,0,1,1] ∧
  (∀ (k : Nat) (s t : State), exec (.init k) s = .next t → s.mode = .uninitialized →
    t.mode = .ready → ∀ u, u < Config.maxSequenceLength → Memory.read t.seq u = some (lfsrBit u))

/-- A successful `INIT k` (41_generator.md section 2): it completes for every `k` in range on an admitted
engine, latches `k`, loads and steps the register, writes every entry of the table and none above it,
becomes Ready, answers `OK k`, and changes nothing else. -/
def Obligations.InitConstructsEngine : Prop :=
  ∀ (k : Nat) (s : State), s.mode = .uninitialized → s.cfgErr = false → 1 ≤ k →
    k ≤ Config.maxSequenceLength →
    ∃ table : Memory,
      exec (.init k) s =
        .next
          { s with
            kbch := k
            sr := lfsrState Config.maxSequenceLength
            seq := table
            mode := .ready
            reply := some { rsp := (BitVec.ofNat 28 k).setWidth 32, out := [] } } ∧
      (∀ t, t < Config.maxSequenceLength → Memory.read table t = some (lfsrBit t)) ∧
      (∀ t, Config.maxSequenceLength ≤ t → Memory.read table t = Memory.read s.seq t)

/-- The table `INIT` leaves is what the spec's own loop leaves, `MAX_SEQUENCE_LENGTH` steps each followed
by one `MemWrite` in ascending order, and so is the register (41_generator.md section 2, 20_memory.md
section 4). -/
def Obligations.InitTableIsWriteLoop : Prop :=
  ∀ m : Memory, Memory.wf m →
    generateLoop Config.maxSequenceLength 0 0x4A80#15 m =
      (generateTable m, lfsrState Config.maxSequenceLength)

/-- 41_generator.md R81 and R77: two tables constructed on any instances for any frame lengths are written
in full and agree in every entry. -/
def Obligations.TablesAreIdentical : Prop :=
  ∀ (k k' : Nat) (s s' t t' : State),
    s.mode = .uninitialized → exec (.init k) s = .next t → t.mode = .ready →
    s'.mode = .uninitialized → exec (.init k') s' = .next t' → t'.mode = .ready →
    ∀ u, u < Config.maxSequenceLength →
      Memory.read t.seq u = Memory.read t'.seq u ∧ ∃ b, Memory.read t.seq u = some b

/-! ## The descrambler -/

/-- 42_descrambler.md R96, R97, R100: `PROC` of any whole number of frames completes on a Ready engine,
answers `OK N` with `OUT[t] = IN[t] XOR seq[t mod kbch] = IN[t] XOR G(t mod kbch)` for every `t < N`, as
many output elements as input elements, and changes nothing else. -/
def Obligations.ProcDescrambles : Prop :=
  ∀ (k n : Nat) (s : State), ReadyWith k s → n % k = 0 →
    ∃ out : List Bit,
      exec (.proc n) s =
        .next
          { s with
            reply := some { rsp := (BitVec.ofNat 28 n).setWidth 32, out := out } } ∧
      out.length = n ∧
      ∀ t, t < n → out[t]? = some (readIn s t ^^ lfsrBit (t % k)) ∧
        out[t]? = (Memory.read s.seq (t % k)).map (fun b => readIn s t ^^ b)

/-- 42_descrambler.md R93: a `PROC` of a count that is not a multiple of `kbch` raises `MisalignedInput`,
writes no output and changes no state but `STATUS.CALL_ERR`. -/
def Obligations.ProcMisalignedCount : Prop :=
  ∀ (n : Nat) (s : State), s.mode = .ready → 1 ≤ s.kbch → n % s.kbch ≠ 0 →
    exec (.proc n) s =
      .next
        { s with
          callErr := true
          reply := some { rsp := 0x80000000#32, out := [] } }

/-- 42_descrambler.md R94: a `PROC 0` on a Ready engine reads nothing, writes nothing and answers `OK 0`. -/
def Obligations.ProcEmptyCall : Prop :=
  ∀ s : State, s.mode = .ready → 1 ≤ s.kbch →
    exec (.proc 0) s = .next { s with reply := some { rsp := 0#32, out := [] } }

/-- Where `PROC` stops: on a zero frame length, on an unwritten entry, on an index past the table. For an
unwritten entry alone the spec advises a fault (10_state.md R15, 93_implementation_defined.md U9). The stop
at an index past the table, an access that 20_memory.md R45 says only has no meaning, and the stop by name
on `kbch` 0 inside `PROC`, whose loop 93_implementation_defined.md U1 says only never to model, are the
model's choice (DEDUCED, notes/assumptions/9.md). The lifecycle invariant rules all three out. -/
def Obligations.ProcStopsWithoutWindow : Prop :=
  ∀ (n : Nat) (s : State), s.mode = .ready →
    (s.kbch = 0 → exec (.proc n) s = .fault .zeroFrameLength) ∧
    (1 ≤ s.kbch → 0 < n → n % s.kbch = 0 → ∀ j, j < s.kbch →
      (∀ u, u < j → u < Config.maxSequenceLength ∧ Memory.read s.seq u ≠ none) →
      (j < Config.maxSequenceLength → Memory.read s.seq j = none →
        exec (.proc n) s = .fault .unwrittenEntry) ∧
      (Config.maxSequenceLength ≤ j → exec (.proc n) s = .fault .seqIndexOutOfRange))

/-- 42_descrambler.md R98: the output of a frame is one and the same function of that frame's input and
the window, whatever the other frames hold, whichever frame and call it is. -/
def Obligations.FrameIndependence : Prop :=
  ∀ (k n n' f f' : Nat) (s s' : State), ReadyWith k s → ReadyWith k s' →
    n % k = 0 → n' % k = 0 → f < n / k → f' < n' / k →
    (∀ j, j < k → readIn s (f * k + j) = readIn s' (f' * k + j)) →
    ∃ out out' : List Bit,
      exec (.proc n) s =
        .next
          { s with
            reply := some { rsp := (BitVec.ofNat 28 n).setWidth 32, out := out } } ∧
      exec (.proc n') s' =
        .next
          { s' with
            reply := some { rsp := (BitVec.ofNat 28 n').setWidth 32, out := out' } } ∧
      ∀ j, j < k → out[f * k + j]? = out'[f' * k + j]? ∧ ∃ b, out[f * k + j]? = some b

/-- 42_descrambler.md R99: descrambling the output of a call gives that call's input back, on the same
instance or on any instance with the same `kbch`. -/
def Obligations.DescramblingIsAnInvolution : Prop :=
  ∀ (k : Nat) (s s' : State) (x : List Bit), ReadyWith k s → ReadyWith k s' → x.length % k = 0 →
    ∃ y : List Bit,
      y.length = x.length ∧
      perform (.proc x.length) x s =
        .next
          { s with
            fresh := s.fresh + 1
            reply := some { rsp := (BitVec.ofNat 28 x.length).setWidth 32, out := y } } ∧
      perform (.proc x.length) y s' =
        .next
          { s' with
            fresh := s'.fresh + 1
            reply := some { rsp := (BitVec.ofNat 28 x.length).setWidth 32, out := x } }

/-- 42_descrambler.md R104: one call on a concatenation gives the concatenation of what two calls give on
the parts. -/
def Obligations.CallsSplitAtFrameBoundaries : Prop :=
  ∀ (k : Nat) (s : State) (x y : List Bit), ReadyWith k s → x.length % k = 0 → y.length % k = 0 →
    ∃ outx outy : List Bit,
      let rx : Reply := { rsp := (BitVec.ofNat 28 x.length).setWidth 32, out := outx }
      let ry : Reply := { rsp := (BitVec.ofNat 28 y.length).setWidth 32, out := outy }
      let rxy : Reply :=
        { rsp := (BitVec.ofNat 28 (x.length + y.length)).setWidth 32, out := outx ++ outy }
      perform (.proc x.length) x s = .next { s with fresh := s.fresh + 1, reply := some rx } ∧
      perform (.proc y.length) y { s with fresh := s.fresh + 1, reply := some rx } =
        .next { s with fresh := s.fresh + 2, reply := some ry } ∧
      perform (.proc (x.length + y.length)) (x ++ y) s =
        .next { s with fresh := s.fresh + 1, reply := some rxy }

/-- 20_memory.md R40: two non-faulting calls on the same Ready instance commute: either order gives the
same two outputs and the same state (the response of the later call is the one left at the port). -/
def Obligations.CallsCommute : Prop :=
  ∀ (k : Nat) (s : State) (x y : List Bit), ReadyWith k s → x.length % k = 0 → y.length % k = 0 →
    ∃ rx ry : Reply,
      perform (.proc x.length) x s = .next { s with fresh := s.fresh + 1, reply := some rx } ∧
      perform (.proc y.length) y { s with fresh := s.fresh + 1, reply := some rx } =
        .next { s with fresh := s.fresh + 2, reply := some ry } ∧
      perform (.proc y.length) y s = .next { s with fresh := s.fresh + 1, reply := some ry } ∧
      perform (.proc x.length) x { s with fresh := s.fresh + 1, reply := some ry } =
        .next { s with fresh := s.fresh + 2, reply := some rx } ∧
      rspFault rx.rsp = 0 ∧ rspFault ry.rsp = 0

/-- 42_descrambler.md R103, for every frame length and number of frames: an all-zero input gives copies of
the window, and the window as input gives an all-zero frame. -/
def Obligations.ZerosGiveTheWindow : Prop :=
  ∀ (k : Nat) (s : State), ReadyWith k s →
    (∀ frames, perform (.proc (frames * k)) (List.replicate (frames * k) false) s =
      .next
        { s with
          fresh := s.fresh + 1
          reply := some
            { rsp := (BitVec.ofNat 28 (frames * k)).setWidth 32
              out := (List.replicate frames ((List.range k).map lfsrBit)).flatten } }) ∧
    (∀ t, t < k → Memory.read s.seq t = some (lfsrBit t)) ∧
    perform (.proc k) ((List.range k).map lfsrBit) s =
      .next
        { s with
          fresh := s.fresh + 1
          reply := some { rsp := (BitVec.ofNat 28 k).setWidth 32, out := List.replicate k false } }

/-! ## Reading out -/

/-- `RDK` (43_status.md): it answers `kbch` on a Ready engine, which is between 1 and
`MAX_SEQUENCE_LENGTH`, and raises `IllegalOperation` on an Uninitialized one. -/
def Obligations.RdkAnswersGranularity : Prop :=
  ∀ s : State,
    (s.mode = .ready →
      exec .rdk s =
        .next
          { s with
            reply := some { rsp := (BitVec.ofNat 28 s.kbch).setWidth 32, out := [] } }) ∧
    (s.mode = .uninitialized →
      exec .rdk s =
        .next
          { s with
            opErr := true
            reply := some { rsp := 0xC0000000#32, out := [] } }) ∧
    (LifecycleInv s → s.mode = .ready →
      1 ≤ s.kbch ∧ s.kbch ≤ Config.maxSequenceLength ∧ s.kbch < 2 ^ 28)

/-- 43_status.md R106: `RDSTAT` answers the four bits of `STATUS` with all other bits 0, in every state,
and changes nothing; `READY` and `CFG_ERR` exclude each other. -/
def Obligations.RdstatAnswersStatus : Prop :=
  (∀ s : State, ∃ rsp : Word32,
    exec .rdstat s = .next { s with reply := some { rsp := rsp, out := [] } } ∧
    rsp.getLsbD 0 = decide (s.mode = .ready) ∧ rsp.getLsbD 1 = s.cfgErr ∧
    rsp.getLsbD 2 = s.callErr ∧ rsp.getLsbD 3 = s.opErr ∧ (∀ b, 4 ≤ b → rsp.getLsbD b = false) ∧
    (LifecycleInv s → ¬(rsp.getLsbD 0 = true ∧ rsp.getLsbD 1 = true))) ∧
  exec .rdstat State.reset =
    .next { State.reset with reply := some { rsp := 0#32, out := [] } }

/-! ## Faults and the lifecycle -/

/-- 60_exceptions.md R121: the admission table, and how the lifecycle state is entered and left. -/
def Obligations.AdmissionTable : Prop :=
  (∀ (i : Instr) (s : State), ¬ Admitted s i →
    exec i s =
      .next
        { s with
          opErr := true
          reply := some { rsp := 0xC0000000#32, out := [] } }) ∧
  (∀ (i : Instr) (s t : State), Admitted s i → exec i s = .next t →
    t.opErr = s.opErr ∧ ∃ r, t.reply = some r ∧ rspFault r.rsp ≠ 3#2) ∧
  (∀ (i : Instr) (s t : State), exec i s = .next t →
    (t.mode = s.mode ∧ t.cfgErr = s.cfgErr) ∨
    ((∃ k, i = .init k) ∧ s.mode = .uninitialized ∧ s.cfgErr = false ∧
      ((t.mode = .ready ∧ t.cfgErr = false) ∨ (t.mode = .uninitialized ∧ t.cfgErr = true)))) ∧
  (∀ (s : State) (rest : List Request), s.requests = .reset :: rest →
    ∃ t, step s = .next t ∧ t.mode = .uninitialized ∧ t.cfgErr = false) ∧
  (∀ (s : State) (w : Word32) (input : List Bit) (rest : List Request) (why : Reserved),
    s.requests = .command w input :: rest → decode w = .error why →
    ∃ t, step s = .next t ∧ t.mode = s.mode ∧ t.cfgErr = s.cfgErr ∧ t.opErr = true ∧
      t.reply = some { rsp := 0xC0000000#32, out := [] })

/-- 60_exceptions.md R115: at most one fault, decode before admission before operand. -/
def Obligations.FaultPriority : Prop :=
  (∀ (i : Instr) (s t : State), exec i s = .next t → ∃ r, t.reply = some r) ∧
  (∀ (s t : State) (w : Word32) (input : List Bit) (rest : List Request) (why : Reserved),
    s.requests = .command w input :: rest → decode w = .error why → step s = .next t →
    t.opErr = true ∧ t.cfgErr = s.cfgErr ∧ t.callErr = s.callErr ∧
      t.reply = some { rsp := 0xC0000000#32, out := [] }) ∧
  (∀ (i : Instr) (s : State), ¬ Admitted s i →
    exec i s =
      .next { s with opErr := true, reply := some { rsp := 0xC0000000#32, out := [] } }) ∧
  (∀ (k : Nat) (s : State), s.mode = .uninitialized → s.cfgErr = false →
    (k = 0 ∨ Config.maxSequenceLength < k) →
    exec (.init k) s =
      .next { s with cfgErr := true, reply := some { rsp := 0x40000000#32, out := [] } }) ∧
  (∀ (n : Nat) (s : State), s.mode = .ready → 1 ≤ s.kbch → n % s.kbch ≠ 0 →
    exec (.proc n) s =
      .next { s with callErr := true, reply := some { rsp := 0x80000000#32, out := [] } })

/-- 60_exceptions.md R113: a faulting operation, a reserved word among them, sets its own sticky bit and
no other, answers its code with value 0, writes no output, and changes nothing else. -/
def Obligations.FaultChangesOneStickyBit : Prop :=
  ∀ (s t : State) (w : Word32) (input : List Bit) (rest : List Request) (r : Reply),
    s.requests = .command w input :: rest → step s = .next t → t.reply = some r →
    rspFault r.rsp ≠ 0 →
    r.out = [] ∧ rspValue r.rsp = 0 ∧
    t =
      { s with
        requests := rest
        fresh := s.fresh + 1
        cfgErr := s.cfgErr || decide (rspFault r.rsp = 1#2)
        callErr := s.callErr || decide (rspFault r.rsp = 2#2)
        opErr := s.opErr || decide (rspFault r.rsp = 3#2)
        reply := some r }

/-- The sticky bits stay set until the reset event, and nothing but the reset event leaves a failed
construction (10_state.md section 2, 60_exceptions.md section 3). -/
def Obligations.OnlyResetClearsErrors : Prop :=
  ∀ s t : State, step s = .next t → NoResetNext s →
    (s.cfgErr = true → t.cfgErr = true) ∧ (s.callErr = true → t.callErr = true) ∧
      (s.opErr = true → t.opErr = true) ∧
    (FailedConstruction s → FailedConstruction t ∧ t.kbch = s.kbch ∧ t.seq = s.seq ∧ t.sr = s.sr)

/-- 10_state.md R23: after a successful `INIT` nothing the harness issues but the reset event writes
`mode`, `kbch`, `seq` or `sr`; only `CALL_ERR` and `OP_ERR` can still change. -/
def Obligations.ReadyEngineIsReadOnly : Prop :=
  ∀ s t : State, s.mode = .ready → NoResetNext s → step s = .next t →
    t.mode = .ready ∧ t.kbch = s.kbch ∧ t.seq = s.seq ∧ t.sr = s.sr ∧ t.cfgErr = s.cfgErr

/-! ## Reset -/

/-- 10_state.md R26: what reset leaves; `sr` is unspecified and the statement says nothing of it. -/
def Obligations.ResetStateValues : Prop :=
  State.reset.mode = .uninitialized ∧ State.reset.kbch = 0 ∧
  (∀ t, Memory.read State.reset.seq t = none) ∧
  State.reset.ready = false ∧ State.reset.cfgErr = false ∧ State.reset.callErr = false ∧
  State.reset.opErr = false ∧ State.reset.status = 0

/-- 70_reset_and_hazards.md R131, with the values of 10_state.md section 5: the reset event leaves no table and no `kbch`,
an Uninitialized engine, and no error recorded, whatever the state before it. -/
def Obligations.ResetEventLeavesNoTable : Prop :=
  ∀ (s : State) (rest : List Request), s.requests = .reset :: rest →
    ∃ t, step s = .next t ∧ t.mode = .uninitialized ∧ t.kbch = 0 ∧
      (∀ u, Memory.read t.seq u = none) ∧ t.status = 0 ∧ t.requests = rest

/-! ## Invariants -/

/-- The lifecycle invariant holds at reset, and so does the agreement of the run record, with no response given
yet. -/
def Obligations.ResetMeetsInvariants : Prop :=
  LifecycleInv State.reset ∧ RunRecordAgrees [] State.reset ∧
    FreshReset State.reset ∧ State.reset.reply = none

/-- Every step keeps the lifecycle invariant (70_reset_and_hazards.md section 5): whatever the harness
issues, the engine is Uninitialized with no table and `kbch` 0, or Ready with a frame length in range, the
whole table holding `G`, the register where generation left it and no configuration error; the table stays
in canonical form. -/
def Obligations.StepKeepsLifecycleInv : Prop :=
  ∀ s t : State, LifecycleInv s → step s = .next t → LifecycleInv t

/-- 70_reset_and_hazards.md section 5: a state with the invariant is in exactly one of the three classes,
and in the third for one `k` only. -/
def Obligations.LifecycleClassesAreExclusive : Prop :=
  ∀ s : State, LifecycleInv s →
    let fresh := s.mode = .uninitialized ∧ s.cfgErr = false ∧ s.seq = []
    let failed := FailedConstruction s ∧ s.seq = []
    let isReady := ∃ k, ReadyWith k s
    (fresh ∨ failed ∨ isReady) ∧ ¬(fresh ∧ failed) ∧ ¬(fresh ∧ isReady) ∧ ¬(failed ∧ isReady) ∧
      ∀ k k', ReadyWith k s → ReadyWith k' s → k = k'

/-- Under the lifecycle invariant no step stops: every move of the harness has a next state, no unwritten
entry is read, no index is out of range and no zero frame length reaches `PROC` (10_state.md section 2,
20_memory.md section 6, 42_descrambler.md section 3). -/
def Obligations.InvariantStepNeverStops : Prop :=
  ∀ s : State, LifecycleInv s → ∃ t, step s = .next t

/-- 30_encoding.md R52: whatever the harness issues and whatever the state, a response has a zero field 29:28,
value 0 on a fault, and is accompanied by output of the length it answers or by none. -/
def Obligations.StepKeepsResponseFormat : Prop :=
  ∀ (s t : State) (r : Reply), step s = .next t → t.reply = some r → ReplyWellFormed r

/-- 70_reset_and_hazards.md R143, as an invariant: some response of the run carries a nonzero fault code exactly
when a sticky error bit is set. The responses are the harness's, those since the run began: a step adds its
own, and the reset event begins a new run. -/
def Obligations.StepKeepsRunRecord : Prop :=
  ∀ (replies : List Reply) (s t : State), RunRecordAgrees replies s → step s = .next t →
    (NoResetNext s → RunRecordAgrees (replies ++ t.reply.toList) t) ∧
    (¬ NoResetNext s → RunRecordAgrees [] t)

/-- 70_reset_and_hazards.md R143: in a run of any commands, from any state with no fault recorded, some response
carries a nonzero fault code exactly when a sticky error bit is set at the end. -/
def Obligations.RunWentWrongIffErrorRecorded : Prop :=
  ∀ (moves : List Request) (s t : State) (replies : List Reply), NoFaultRecorded s →
    Request.reset ∉ moves → run moves s = .next (t, replies) →
    RunRecordAgrees replies t

/-- 70_reset_and_hazards.md R143 and R145: a run of any moves, from any state with the lifecycle invariant, ends,
keeps the invariant, answers every command once and the reset event never. -/
def Obligations.RunAnswersEveryCommand : Prop :=
  ∀ (moves : List Request) (s : State), LifecycleInv s →
    ∃ (t : State) (replies : List Reply), run moves s = .next (t, replies) ∧ LifecycleInv t ∧
      t.requests = s.requests ∧ replies.length = moves.countP (fun m => decide (m ≠ .reset))

/-- What the harness cannot observe (10_state.md section 4, 43_status.md): two states that differ only in
`sr` and in table entries outside the window of a Ready engine step alike, give the same responses and
outputs, and stay indistinguishable, or stop alike. -/
def Obligations.HiddenStateIsUnobservable : Prop :=
  ∀ s s' : State, SameToHarness s s' →
    (∀ t, step s = .next t → ∃ t', step s' = .next t' ∧ t'.reply = t.reply ∧ SameToHarness t t') ∧
    (∀ f, step s = .fault f → step s' = .fault f)
end

