-- ==== Sys2Proof/Laws/Config.lean ====
section
/-! SUPPORT. What is known of the open parameters (00_scope.md R6, 40_resolver.md R66 to R71). -/

namespace Sys2Proof.Machine

/-- `MAX_SEQUENCE_LENGTH` is at least 16008 (00_scope.md R6). -/
theorem length_ge : 16008 ≤ Config.maxSequenceLength := by
  unfold Config.maxSequenceLength
  omega

/-- `MAX_SEQUENCE_LENGTH` fits the `kbch` register (00_scope.md R6). -/
theorem length_lt_kw : Config.maxSequenceLength < 2 ^ Config.params.kw := by
  unfold Config.maxSequenceLength
  exact Config.params.length_lt_pow

/-- `MAX_SEQUENCE_LENGTH` fits the 28-bit operand field (00_scope.md R6). -/
theorem length_lt : Config.maxSequenceLength < 2 ^ 28 :=
  lt_of_lt_of_le length_lt_kw (Nat.pow_le_pow_right (by omega) Config.params.kw_le)

/-- The code of an identifier stands for that identifier (30_encoding.md R57). -/
theorem rateOfCode_rateCode (r : RateId) (h : r ∈ Config.params.rateIds) :
    rateOfCode (Config.params.rateCode r) = some r := by
  unfold rateOfCode
  cases hf : Config.params.rateIds.find?
      (fun r' => Config.params.rateCode r' == Config.params.rateCode r) with
  | none => simpa using List.find?_eq_none.1 hf r h
  | some r' =>
    have h1 := List.mem_of_find?_eq_some hf
    have h2 := List.find?_some hf
    rw [Config.params.rateCode_injective r' h1 r h (by simpa using h2)]

/-- The identifier a code stands for has that code. -/
theorem rateOfCode_eq_some (c : BitVec 8) (r : RateId) (h : rateOfCode c = some r) :
    r ∈ Config.params.rateIds ∧ Config.params.rateCode r = c := by
  unfold rateOfCode at h
  exact ⟨List.mem_of_find?_eq_some h, by simpa using List.find?_some h⟩

theorem kbchOf_rateCode (cls : FrameClass) (r : RateId) (h : r ∈ Config.params.rateIds) :
    kbchOf cls (Config.params.rateCode r) = Config.params.kbchTable cls r := by
  simp [kbchOf, rateOfCode_rateCode r h]

/-- No value of the table is above `MAX_SEQUENCE_LENGTH` (40_resolver.md R71). -/
theorem kbchOf_le (cls : FrameClass) (c : BitVec 8) : kbchOf cls c ≤ Config.maxSequenceLength := by
  unfold kbchOf Config.maxSequenceLength
  split
  · exact Config.params.kbchTable_le cls _
  · omega

end Sys2Proof.Machine
end

