-- ==== Sys2Proof/Laws/Decode.lean ====
section
/-! SUPPORT. Every decoded operation is well-formed (30_encoding.md R54, R55, R63). -/

namespace Sys2Proof

theorem decode_wellFormed (w : Word32) (i : Instr) (h : decode w = .ok i) : i.wellFormed = true := by
  have hlt := (argField w).isLt
  unfold decode at h
  split at h
  · cases h
    exact decide_eq_true hlt
  · cases h
    exact decide_eq_true hlt
  · unfold decodeNoOperand at h
    split at h <;> cases h
    rfl
  · unfold decodeNoOperand at h
    split at h <;> cases h
    rfl
  · unfold decodeResolve at h
    split at h
    · split at h <;> cases h
      rfl
    · cases h
  · cases h

end Sys2Proof
end

