-- ==== Sys2Proof/Laws/State.lean ====
section
/-! SUPPORT. One lemma per field per update of State, so that no proof unfolds a record update. -/

namespace Sys2Proof.Machine

@[simp] theorem respond_mode (s : State) (v : BitVec 28) (out : List Bit) :
    (s.respond v out).mode = s.mode := rfl
@[simp] theorem respond_kbch (s : State) (v : BitVec 28) (out : List Bit) :
    (s.respond v out).kbch = s.kbch := rfl
@[simp] theorem respond_seq (s : State) (v : BitVec 28) (out : List Bit) :
    (s.respond v out).seq = s.seq := rfl
@[simp] theorem respond_sr (s : State) (v : BitVec 28) (out : List Bit) :
    (s.respond v out).sr = s.sr := rfl
@[simp] theorem respond_cfgErr (s : State) (v : BitVec 28) (out : List Bit) :
    (s.respond v out).cfgErr = s.cfgErr := rfl
@[simp] theorem respond_callErr (s : State) (v : BitVec 28) (out : List Bit) :
    (s.respond v out).callErr = s.callErr := rfl
@[simp] theorem respond_opErr (s : State) (v : BitVec 28) (out : List Bit) :
    (s.respond v out).opErr = s.opErr := rfl
@[simp] theorem respond_requests (s : State) (v : BitVec 28) (out : List Bit) :
    (s.respond v out).requests = s.requests := rfl
@[simp] theorem respond_reply (s : State) (v : BitVec 28) (out : List Bit) :
    (s.respond v out).reply = some { rsp := okWord v, out := out } := rfl
@[simp] theorem respond_toEngine (s : State) (v : BitVec 28) (out : List Bit) :
    (s.respond v out).toEngine = s.toEngine := rfl
@[simp] theorem respond_fresh (s : State) (v : BitVec 28) (out : List Bit) :
    (s.respond v out).fresh = s.fresh := rfl

@[simp] theorem complete_mode (s : State) : s.complete.mode = s.mode := rfl
@[simp] theorem complete_kbch (s : State) : s.complete.kbch = s.kbch := rfl
@[simp] theorem complete_seq (s : State) : s.complete.seq = s.seq := rfl
@[simp] theorem complete_sr (s : State) : s.complete.sr = s.sr := rfl
@[simp] theorem complete_cfgErr (s : State) : s.complete.cfgErr = s.cfgErr := rfl
@[simp] theorem complete_callErr (s : State) : s.complete.callErr = s.callErr := rfl
@[simp] theorem complete_opErr (s : State) : s.complete.opErr = s.opErr := rfl
@[simp] theorem complete_requests (s : State) : s.complete.requests = s.requests.tail := rfl
@[simp] theorem complete_reply (s : State) : s.complete.reply = s.reply := rfl
@[simp] theorem complete_fresh (s : State) : s.complete.fresh = s.fresh + 1 := rfl
@[simp] theorem complete_toEngine (s : State) : s.complete.toEngine = s.toEngine := rfl

@[simp] theorem completing_next (t : State) : completing (.next t) = .next t.complete := rfl
@[simp] theorem completing_fault (f : Fault) : completing (.fault f) = .fault f := rfl
@[simp] theorem completing_refused (r : Refusal) : completing (.refused r) = .refused r := rfl

@[simp] theorem resetEvent_mode (s : State) : s.resetEvent.mode = .uninitialized := rfl
@[simp] theorem resetEvent_kbch (s : State) : s.resetEvent.kbch = 0 := rfl
@[simp] theorem resetEvent_seq (s : State) : s.resetEvent.seq = [] := rfl
@[simp] theorem resetEvent_sr (s : State) : s.resetEvent.sr = Config.resetSr s.fresh := rfl
@[simp] theorem resetEvent_cfgErr (s : State) : s.resetEvent.cfgErr = false := rfl
@[simp] theorem resetEvent_callErr (s : State) : s.resetEvent.callErr = false := rfl
@[simp] theorem resetEvent_opErr (s : State) : s.resetEvent.opErr = false := rfl
@[simp] theorem resetEvent_requests (s : State) : s.resetEvent.requests = s.requests := rfl
@[simp] theorem resetEvent_reply (s : State) : s.resetEvent.reply = none := rfl
@[simp] theorem resetEvent_fresh (s : State) : s.resetEvent.fresh = s.fresh := rfl

@[simp] theorem raise_mode (s : State) (f : CoreFault) : (s.raise f).mode = s.mode := by
  cases f <;> rfl
@[simp] theorem raise_kbch (s : State) (f : CoreFault) : (s.raise f).kbch = s.kbch := by
  cases f <;> rfl
@[simp] theorem raise_seq (s : State) (f : CoreFault) : (s.raise f).seq = s.seq := by
  cases f <;> rfl
@[simp] theorem raise_sr (s : State) (f : CoreFault) : (s.raise f).sr = s.sr := by
  cases f <;> rfl
@[simp] theorem raise_cfgErr (s : State) (f : CoreFault) :
    (s.raise f).cfgErr = (s.cfgErr || decide (f = .configurationError)) := by
  cases f <;> simp [State.raise, State.stick]
@[simp] theorem raise_callErr (s : State) (f : CoreFault) :
    (s.raise f).callErr = (s.callErr || decide (f = .misalignedInput)) := by
  cases f <;> simp [State.raise, State.stick]
@[simp] theorem raise_opErr (s : State) (f : CoreFault) :
    (s.raise f).opErr = (s.opErr || decide (f = .illegalOperation)) := by
  cases f <;> simp [State.raise, State.stick]
@[simp] theorem raise_requests (s : State) (f : CoreFault) : (s.raise f).requests = s.requests := by
  cases f <;> rfl
@[simp] theorem raise_reply (s : State) (f : CoreFault) :
    (s.raise f).reply = some { rsp := faultWord f, out := [] } := by
  cases f <;> rfl
@[simp] theorem raise_fresh (s : State) (f : CoreFault) : (s.raise f).fresh = s.fresh := by
  cases f <;> rfl

@[simp] theorem respond_ready (s : State) (v : BitVec 28) (out : List Bit) :
    (s.respond v out).ready = s.ready := rfl
@[simp] theorem complete_ready (s : State) : s.complete.ready = s.ready := rfl
@[simp] theorem raise_ready (s : State) (f : CoreFault) : (s.raise f).ready = s.ready := by
  cases f <;> rfl
theorem ready_eq_true (s : State) : s.ready = true ↔ s.mode = .ready := by
  simp [State.ready]

/-- Raising a fault, written out as one record (60_exceptions.md R113). -/
theorem raise_eq (s : State) (f : CoreFault) :
    s.raise f =
      { s with
        cfgErr := s.cfgErr || decide (f = .configurationError)
        callErr := s.callErr || decide (f = .misalignedInput)
        opErr := s.opErr || decide (f = .illegalOperation)
        reply := some { rsp := faultWord f, out := [] } } := by
  cases f <;> simp [State.raise, State.stick]

/-- Reading `IN` looks at the bound buffer and the counter only. -/
theorem readIn_congr (s t : State) (hi : t.boundInput = s.boundInput) (hf : t.fresh = s.fresh) (n : Nat) :
    readIn t n = readIn s n := by
  simp [readIn, hi, hf]

/-- The bound buffer is the one the move at the head of `requests` carries. -/
theorem boundInput_cons (s : State) (w : Word32) (input : List Bit) (rest : List Request)
    (h : s.requests = .command w input :: rest) : s.boundInput = input := by
  simp [State.boundInput, h]

/-- A listed element of `IN` is read as it is listed (20_memory.md R45). -/
theorem readIn_listed (s : State) (t : Nat) (h : t < s.boundInput.length) :
    readIn s t = s.boundInput[t] := by
  simp [readIn, h]

theorem rspFault_okWord (v : BitVec 28) : rspFault (okWord v) = 0 := by
  apply BitVec.eq_of_getLsbD_eq
  intro i hi
  simp [rspFault, okWord]
  exact fun _ _ => BitVec.getLsbD_of_ge v (30 + i) (by omega)

theorem rspZero_okWord (v : BitVec 28) : rspZero (okWord v) = 0 := by
  apply BitVec.eq_of_getLsbD_eq
  intro i hi
  simp [rspZero, okWord]

theorem rspValue_okWord (v : BitVec 28) : rspValue (okWord v) = v := by
  apply BitVec.eq_of_getLsbD_eq
  intro i hi
  simp [rspValue, okWord, hi, show i < 32 by omega]

theorem rspFault_faultWord (f : CoreFault) : rspFault (faultWord f) = f.code := by
  cases f <;> decide

theorem rspZero_faultWord (f : CoreFault) : rspZero (faultWord f) = 0 := by
  cases f <;> decide

theorem rspValue_faultWord (f : CoreFault) : rspValue (faultWord f) = 0 := by
  cases f <;> decide

theorem code_ne_zero (f : CoreFault) : f.code ≠ 0 := by
  cases f <;> decide

end Sys2Proof.Machine
end

