-- ==== Sys2Proof/Laws/Descrambler.lean ====
section
/-! SUPPORT. The frame loop of `PROC` in closed form (42_descrambler.md R96). -/

namespace Sys2Proof.Machine

/-- The engine has a whole window `seq[0 .. kbch)` to read, and `w` is what it holds. -/
def HasWindow (e : Engine) (w : Nat → Bit) : Prop :=
  e.kbch ≤ Config.maxSequenceLength ∧ ∀ j, j < e.kbch → Memory.read e.seq j = some (w j)

theorem readSeq_window (e : Engine) (w : Nat → Bit) (hw : HasWindow e w) (j : Nat) (hj : j < e.kbch) :
    readSeq e j = .ok (w j) := by
  have := lt_of_lt_of_le hj hw.1
  simp [readSeq, this, hw.2 j hj]

/-- The inner loop answers one output bit for each intra-frame offset. -/
theorem procBits_window (e : Engine) (input w : Nat → Bit) (hw : HasWindow e w) (i n j : Nat)
    (h : j + n ≤ e.kbch) :
    procBits e input i n j =
      .ok ((List.range' j n).map fun u => xorBit (input (i + u)) (w u)) := by
  induction n generalizing j with
  | zero => simp [procBits]
  | succ n ih =>
    simp [procBits, readSeq_window e w hw j (by omega), ih (j + 1) (by omega), List.range'_succ]

/-- The outer loop answers one output bit for each position of its frames, the table position being the
one within the frame. -/
theorem procFrames_window (e : Engine) (input w : Nat → Bit) (hw : HasWindow e w) (f i : Nat) :
    procFrames e input f i =
      .ok ((List.range (f * e.kbch)).map fun t => xorBit (input (i + t)) (w (t % e.kbch))) := by
  induction f generalizing i with
  | zero => simp [procFrames]
  | succ f ih =>
    rw [procFrames, procBits_window e input w hw i e.kbch 0 (by omega), ih]
    simp only [Except.ok.injEq]
    rw [Nat.succ_mul, Nat.add_comm (f * e.kbch), List.range_add, List.map_append, List.map_map]
    congr 1
    rw [← List.range_eq_range']
    · refine List.map_congr_left fun u hu => ?_
      have : u < e.kbch := by simpa using hu
      rw [Nat.mod_eq_of_lt this]
    · refine List.map_congr_left fun u _ => ?_
      simp [Nat.add_assoc]

/-- The `OUT` of a `PROC` of `n` elements on an engine whose window holds `w` (42_descrambler.md R96). -/
def outOf (s : State) (w : Nat → Bit) (n : Nat) : List Bit :=
  (List.range n).map fun t => readIn s t ^^ w (t % s.kbch)

@[simp] theorem length_outOf (s : State) (w : Nat → Bit) (n : Nat) : (outOf s w n).length = n := by
  simp [outOf]

theorem getElem?_outOf (s : State) (w : Nat → Bit) (n t : Nat) (h : t < n) :
    (outOf s w n)[t]? = some (readIn s t ^^ w (t % s.kbch)) := by
  simp [outOf, h]

/-- `PROC` of a whole number of frames on a Ready engine with a window (42_descrambler.md R91, R96, R97). -/
theorem execProc_window (s : State) (w : Nat → Bit) (hw : HasWindow s.toEngine w) (n : Nat)
    (hm : s.mode = .ready) (hk : 1 ≤ s.kbch) (hn : n % s.kbch = 0) :
    execProc n s = .next (s.respond (BitVec.ofNat 28 n) (outOf s w n)) := by
  have h0 : s.kbch ≠ 0 := by omega
  rw [execProc, if_neg (by simp [hm]), if_neg h0, if_neg (by simp [hn]), procFrames_window s.toEngine (readIn s) w hw,
    Nat.div_mul_cancel (Nat.dvd_of_mod_eq_zero hn)]
  simp [outOf, xorBit]

/-- `PROC` on an engine that is not Ready (60_exceptions.md R114 b). -/
theorem execProc_not_ready (s : State) (n : Nat) (hm : s.mode = .uninitialized) :
    execProc n s = .next (s.raise .illegalOperation) := by
  simp [execProc, hm]

/-- `PROC` of an item count that is not a whole number of frames (42_descrambler.md R93). -/
theorem execProc_misaligned (s : State) (n : Nat) (hm : s.mode = .ready) (hk : 1 ≤ s.kbch)
    (hn : n % s.kbch ≠ 0) : execProc n s = .next (s.raise .misalignedInput) := by
  simp [execProc, hm, show s.kbch ≠ 0 by omega, hn]

/-- The loops read the engine's `kbch` and window, and the buffer they are given, and nothing else. -/
theorem procBits_congr (e e' : Engine) (input : Nat → Bit)
    (h : ∀ j, j < e.kbch → readSeq e j = readSeq e' j) (i n j : Nat) (hj : j + n ≤ e.kbch) :
    procBits e input i n j = procBits e' input i n j := by
  induction n generalizing j with
  | zero => simp [procBits]
  | succ n ih => simp only [procBits, h j (by omega), ih (j + 1) (by omega)]

theorem procFrames_congr (e e' : Engine) (input : Nat → Bit) (hk : e.kbch = e'.kbch)
    (h : ∀ j, j < e.kbch → readSeq e j = readSeq e' j) (f i : Nat) :
    procFrames e input f i = procFrames e' input f i := by
  induction f generalizing i with
  | zero => simp [procFrames]
  | succ f ih =>
    have := procBits_congr e e' input h i e.kbch 0 (by omega)
    simp only [procFrames, this, ih]
    rw [hk]

/-- Where the loops answer at all, they answer one bit for each position. -/
theorem procBits_length (e : Engine) (input : Nat → Bit) (i n j : Nat) (out : List Bit)
    (h : procBits e input i n j = .ok out) : out.length = n := by
  induction n generalizing j out with
  | zero => simp_all [procBits]
  | succ n ih =>
    rw [procBits] at h
    split at h
    · cases h
    · split at h
      · cases h
      · rename_i out' h'
        cases h
        simp [ih (j + 1) out' h']

theorem procFrames_length (e : Engine) (input : Nat → Bit) (f i : Nat) (out : List Bit)
    (h : procFrames e input f i = .ok out) : out.length = f * e.kbch := by
  induction f generalizing i out with
  | zero => simp_all [procFrames]
  | succ f ih =>
    rw [procFrames] at h
    split at h
    · cases h
    · rename_i cur hcur
      split at h
      · cases h
      · rename_i more hmore
        cases h
        simp [procBits_length e input i e.kbch 0 cur hcur, ih (i + e.kbch) more hmore, Nat.succ_mul,
          Nat.add_comm]

end Sys2Proof.Machine
end

