-- ==== Sys2Proof/Laws/Memory.lean ====
section
/-! SUPPORT. The laws of the address space `SEQ`: reading after writing, the canonical form, and the
table that `INIT` generates. -/

namespace Sys2Proof.Machine

/-- A read after a write to the same index gives the bit written (20_memory.md R45). -/
@[simp] theorem read_write_self (m : Memory) (t : Nat) (b : Bit) :
    Memory.read (Memory.write m t b) t = some b := by
  induction m with
  | nil => simp [Memory.write, Memory.read]
  | cons x m ih =>
    obtain ⟨a, c⟩ := x
    simp only [Memory.write]
    split_ifs with h1 h2 <;> simp [Memory.read, ih]
    omega

/-- A write leaves every other index alone (20_memory.md R45). -/
theorem read_write_other (m : Memory) (t u : Nat) (b : Bit) (h : u ≠ t) :
    Memory.read (Memory.write m t b) u = Memory.read m u := by
  induction m with
  | nil => simp [Memory.write, Memory.read, h.symm]
  | cons x m ih =>
    obtain ⟨a, c⟩ := x
    simp only [Memory.write]
    split_ifs with h1 h2 <;> simp [Memory.read, ih, h.symm]
    subst h2
    simp [h.symm]

/-- The indices a write leaves in the list. -/
theorem mem_write (m : Memory) (t : Nat) (b : Bit) (x : Nat × Bit) (h : x ∈ Memory.write m t b) :
    x = (t, b) ∨ x ∈ m := by
  induction m with
  | nil => simpa [Memory.write] using h
  | cons y m ih =>
    obtain ⟨a, c⟩ := y
    simp only [Memory.write] at h
    split_ifs at h with h1 h2 <;> simp only [List.mem_cons] at h ⊢ <;> tauto

/-- A write keeps the canonical form. -/
theorem wf_write (m : Memory) (t : Nat) (b : Bit) (h : Memory.wf m) :
    Memory.wf (Memory.write m t b) := by
  induction m with
  | nil => simp [Memory.wf, Memory.write]
  | cons y m ih =>
    obtain ⟨a, c⟩ := y
    obtain ⟨hy, hm⟩ := List.pairwise_cons.1 h
    simp only [Memory.write]
    split_ifs with h1 h2
    · refine List.pairwise_cons.2 ⟨fun x hx => ?_, h⟩
      rcases List.mem_cons.1 hx with rfl | hx
      · exact h1
      · exact lt_trans h1 (hy x hx)
    · subst h2
      exact List.pairwise_cons.2 ⟨hy, hm⟩
    · refine List.pairwise_cons.2 ⟨fun x hx => ?_, ih hm⟩
      rcases mem_write m t b x hx with rfl | hx
      · show a < t
        omega
      · exact hy x hx

/-- An index below all listed ones is unwritten. -/
theorem read_eq_none (m : Memory) (t : Nat) (h : ∀ x ∈ m, x.1 ≠ t) : Memory.read m t = none := by
  induction m with
  | nil => rfl
  | cons y m ih =>
    obtain ⟨a, c⟩ := y
    simp only [List.mem_cons, forall_eq_or_imp] at h
    simp [Memory.read, h.1, ih h.2]

theorem read_append (m m' : Memory) (t : Nat) :
    Memory.read (m ++ m') t = (Memory.read m t).or (Memory.read m' t) := by
  induction m with
  | nil => simp [Memory.read]
  | cons y m ih =>
    obtain ⟨a, c⟩ := y
    simp only [List.cons_append, Memory.read, ih]
    split_ifs <;> simp

theorem read_filter_ge (m : Memory) (n t : Nat) (h : n ≤ t) :
    Memory.read (m.filter fun x => decide (n ≤ x.1)) t = Memory.read m t := by
  induction m with
  | nil => rfl
  | cons y m ih =>
    obtain ⟨a, c⟩ := y
    by_cases ha : n ≤ a
    · simp [ha, Memory.read, ih]
    · simp [ha, Memory.read, ih, show ¬ a = t by omega]

theorem genIter_succ (n : Nat) (sr : ShiftReg) :
    genIter (n + 1) sr = (genStep (genIter n sr)).2 := by
  induction n generalizing sr with
  | zero => rfl
  | succ n ih => rw [genIter, ih, genIter]

/-- Steps add up. -/
theorem genIter_add (m n : Nat) (sr : ShiftReg) :
    genIter (m + n) sr = genIter n (genIter m sr) := by
  induction m generalizing sr with
  | zero => simp [genIter]
  | succ m ih => rw [Nat.succ_add, genIter, ih, genIter]

theorem lfsrState_eq (t : Nat) : lfsrState t = genIter t seed := by
  unfold lfsrState
  rfl

@[simp] theorem lfsrState_zero : lfsrState 0 = seed := lfsrState_eq 0

/-- `S(t + 1)` is the register after the step from `S(t)` (41_generator.md R78). -/
theorem lfsrState_succ (t : Nat) : lfsrState (t + 1) = (genStep (lfsrState t)).2 := by
  rw [lfsrState_eq, lfsrState_eq, genIter_succ]

theorem mem_tableCells (n gi : Nat) (sr : ShiftReg) (x : Nat × Bit)
    (h : x ∈ tableCells n gi sr) : gi ≤ x.1 ∧ x.1 < gi + n := by
  induction n generalizing gi sr with
  | zero => simp [tableCells] at h
  | succ n ih =>
    rcases List.mem_cons.1 h with rfl | h
    · simp
    · have := ih (gi + 1) _ h
      omega

theorem wf_tableCells (n gi : Nat) (sr : ShiftReg) : Memory.wf (tableCells n gi sr) := by
  induction n generalizing gi sr with
  | zero => simp [tableCells, Memory.wf]
  | succ n ih =>
    refine List.pairwise_cons.2 ⟨fun x hx => ?_, ih (gi + 1) _⟩
    have := mem_tableCells n (gi + 1) _ x hx
    show gi < x.1
    omega

/-- Entry `gi + j` of the generated cells is the output bit of the `j`-th step from `sr`. -/
theorem read_tableCells (n gi j : Nat) (sr : ShiftReg) (h : j < n) :
    Memory.read (tableCells n gi sr) (gi + j) = some (genStep (genIter j sr)).1 := by
  induction n generalizing gi sr j with
  | zero => omega
  | succ n ih =>
    cases j with
    | zero => simp [tableCells, Memory.read, genIter]
    | succ j =>
      have := ih (gi + 1) j (genStep sr).2 (by omega)
      simp only [tableCells, Memory.read, genIter, show ¬ gi = gi + (j + 1) by omega, if_false]
      rwa [show gi + (j + 1) = gi + 1 + j by omega]

/-- Every entry of the generated table holds `G(t)` (41_generator.md R77, R78). -/
theorem read_generateTable (m : Memory) (t : Nat) (h : t < Config.maxSequenceLength) :
    Memory.read (generateTable m) t = some (lfsrBit t) := by
  have := read_tableCells Config.maxSequenceLength 0 t seed h
  rw [Nat.zero_add] at this
  rw [generateTable, read_append, this, lfsrBit, lfsrState_eq]
  rfl

/-- Generation writes no entry at or above `MAX_SEQUENCE_LENGTH`. -/
theorem read_generateTable_above (m : Memory) (t : Nat) (h : Config.maxSequenceLength ≤ t) :
    Memory.read (generateTable m) t = Memory.read m t := by
  rw [generateTable, read_append, read_eq_none, Option.none_or, read_filter_ge m _ t h]
  intro x hx
  have := mem_tableCells _ _ _ x hx
  omega

/-- Generation keeps the canonical form. -/
theorem wf_generateTable (m : Memory) (h : Memory.wf m) : Memory.wf (generateTable m) := by
  refine List.pairwise_append.2 ⟨wf_tableCells _ _ _, h.filter _, fun x hx y hy => ?_⟩
  have h1 := mem_tableCells _ _ _ x hx
  have h2 := (List.mem_filter.1 hy).2
  simp only [decide_eq_true_eq] at h2
  omega

/-- The reset table is canonical. -/
theorem wf_reset : Memory.wf State.reset.seq := List.Pairwise.nil

end Sys2Proof.Machine
end

