-- ==== Sys2Proof/Laws/Generator.lean ====
section
/-! SUPPORT. `GenStep` bit by bit, and the two outcomes of `INIT` (41_generator.md). -/

namespace Sys2Proof.Machine

/-- The output bit is `sr[0] XOR sr[1]` (41_generator.md R75). -/
theorem genBit_eq (sr : ShiftReg) : genBit sr = (sr.getLsbD 0 ^^ sr.getLsbD 1) := by
  have h : ∀ x : ShiftReg, ((x &&& 1#15) == 1#15) = x.getLsbD 0 := by
    intro x
    rw [BitVec.and_one_eq_setWidth_ofBool_getLsbD]
    cases x.getLsbD 0 <;> decide
  simp [genBit, outputMask, h]

/-- Bit `k` of the next register (41_generator.md R75): bits move down one place and bit 14 is the
output bit. -/
theorem genNext_getLsbD (sr : ShiftReg) (k : Nat) (hk : k < 15) :
    (genNext sr).getLsbD k = if k = 14 then genBit sr else sr.getLsbD (k + 1) := by
  have hm : feedbackMask.getLsbD k = decide (k = 14) := by
    have : ∀ k : Fin 15, feedbackMask.getLsbD k.1 = decide (k.1 = 14) := by decide
    exact this ⟨k, hk⟩
  unfold genNext
  by_cases h : k = 14
  · subst h
    cases hb : genBit sr <;> simp [hm]
  · cases hb : genBit sr <;> simp [hm, h, Nat.add_comm 1 k]

/-- Bit 14 of the register after step `t` is the output `G(t)` (41_generator.md R79). -/
theorem lfsrState_succ_top (t : Nat) : (lfsrState (t + 1)).getLsbD 14 = lfsrBit t := by
  rw [lfsrState_succ]
  exact (genNext_getLsbD _ 14 (by omega)).trans (if_pos rfl)

/-- The other bits move down one place (41_generator.md R79). -/
theorem lfsrState_succ_low (t k : Nat) (hk : k < 14) :
    (lfsrState (t + 1)).getLsbD k = (lfsrState t).getLsbD (k + 1) := by
  rw [lfsrState_succ]
  exact (genNext_getLsbD _ k (by omega)).trans (if_neg (by omega))

/-- `INIT` where it is not admitted (60_exceptions.md R114 c, d). -/
theorem execInit_not_admitted (k : Nat) (s : State) (h : s.mode = .ready ∨ s.cfgErr = true) :
    execInit k s = .next (s.raise .illegalOperation) := by
  simp [execInit, h]

/-- `INIT` of a frame length out of range (60_exceptions.md R111). -/
theorem execInit_out_of_range (k : Nat) (s : State) (hm : s.mode = .uninitialized)
    (hc : s.cfgErr = false) (h : k = 0 ∨ Config.maxSequenceLength < k) :
    execInit k s = .next (s.raise .configurationError) := by
  simp [execInit, hm, hc, h]

/-- `INIT` of a frame length in range constructs the engine (41_generator.md R76). -/
theorem execInit_constructs (k : Nat) (s : State) (hm : s.mode = .uninitialized)
    (hc : s.cfgErr = false) (h1 : 1 ≤ k) (h2 : k ≤ Config.maxSequenceLength) :
    execInit k s =
      .next
        (State.respond
          { s with
            kbch := k
            sr := lfsrState Config.maxSequenceLength
            seq := generateTable s.seq
            mode := .ready }
          (BitVec.ofNat 28 k) []) := by
  have : ¬(k = 0 ∨ Config.maxSequenceLength < k) := by omega
  simp [execInit, hm, hc, this]

end Sys2Proof.Machine
end

