-- ==== Sys2Proof/Laws/Exec.lean ====
section
/-! SUPPORT. What an operation and a step can do, said once. -/

namespace Sys2Proof.Machine

/-- The state a successful `INIT k` leaves (41_generator.md R76). -/
def State.constructed (s : State) (k : Nat) : State :=
  State.respond
    { s with
      kbch := k
      sr := lfsrState Config.maxSequenceLength
      seq := generateTable s.seq
      mode := .ready }
    (BitVec.ofNat 28 k) []

/-- What an operation can do: raise a fault of the spec, respond with nothing else changed, construct
the engine, or stop in a state no run reaches. -/
theorem exec_cases (i : Instr) (s : State) :
    (∃ f, exec i s = .next (s.raise f) ∧
      (f = .configurationError → s.mode = .uninitialized ∧ s.cfgErr = false) ∧
      (f = .misalignedInput → s.mode = .ready)) ∨
    (∃ v out, exec i s = .next (s.respond v out) ∧
      (out = [] ∨ ∃ n, i = .proc n ∧ v = BitVec.ofNat 28 n ∧ out.length = n)) ∨
    (∃ k, i = .init k ∧ s.mode = .uninitialized ∧ s.cfgErr = false ∧ 1 ≤ k ∧
      k ≤ Config.maxSequenceLength ∧ exec i s = .next (s.constructed k)) ∨
    (∃ n f, i = .proc n ∧ s.mode = .ready ∧ exec i s = .fault f) := by
  cases i with
  | init k =>
    by_cases ha : s.mode = .ready ∨ s.cfgErr = true
    · exact .inl ⟨_, execInit_not_admitted k s ha, by simp, by simp⟩
    · have hm : s.mode = .uninitialized := by
        cases h : s.mode <;> simp_all
      have hc : s.cfgErr = false := by
        cases h : s.cfgErr <;> simp_all
      by_cases hk : k = 0 ∨ Config.maxSequenceLength < k
      · exact .inl ⟨_, execInit_out_of_range k s hm hc hk, by simp [hm, hc], by simp⟩
      · exact .inr (.inr (.inl ⟨k, rfl, hm, hc, by omega, by omega,
          execInit_constructs k s hm hc (by omega) (by omega)⟩))
  | proc n =>
    show _ ∨ _ ∨ _ ∨ _
    cases hm : s.mode with
    | uninitialized => exact .inl ⟨_, execProc_not_ready s n hm, by simp, by simp⟩
    | ready =>
      by_cases hk : s.kbch = 0
      · exact .inr (.inr (.inr ⟨n, _, rfl, rfl, by simp [exec, execProc, hm, hk]; rfl⟩))
      · by_cases hn : n % s.kbch = 0
        · cases hp : procFrames s.toEngine (readIn s) (n / s.kbch) 0 with
          | error f =>
            exact .inr (.inr (.inr ⟨n, f, rfl, rfl, by simp [exec, execProc, hm, hk, hn, hp]⟩))
          | ok out =>
            refine .inr (.inl ⟨_, out, by simp [exec, execProc, hm, hk, hn, hp], .inr ⟨n, rfl, rfl, ?_⟩⟩)
            rw [procFrames_length s.toEngine (readIn s) _ 0 out hp, Nat.div_mul_cancel (Nat.dvd_of_mod_eq_zero hn)]
        · exact .inl ⟨_, execProc_misaligned s n hm (by omega) hn, by simp, by simp⟩
  | rdk =>
    cases hm : s.mode with
    | uninitialized => exact .inl ⟨.illegalOperation, by simp [exec, execRdk, hm], by simp, by simp⟩
    | ready => exact .inr (.inl ⟨_, [], by simp [exec, execRdk, hm]; rfl, .inl rfl⟩)
  | rdstat => exact .inr (.inl ⟨_, [], rfl, .inl rfl⟩)
  | resolve std cls rate => exact .inr (.inl ⟨_, [], rfl, .inl rfl⟩)

/-- What an operation leaves alone of the port: the move it is the meaning of is still at the head. -/
theorem exec_port (i : Instr) (s t : State) (h : exec i s = .next t) :
    t.requests = s.requests ∧ t.fresh = s.fresh ∧ t.reply.isSome = true := by
  rcases exec_cases i s with ⟨f, he, -⟩ | ⟨v, out, he, -⟩ | ⟨k, -, -, -, -, -, he⟩ | ⟨n, f, -, -, he⟩ <;>
    rw [he] at h <;> cases h
  · simp
  · simp
  · exact ⟨rfl, rfl, rfl⟩

/-- What a step can do: idle, the reset event, or what `exec_cases` says of the operation, of 28-bit
operands, that the word at the head spells. -/
theorem step_cases (s : State) :
    (s.requests = [] ∧ step s = .next { s with reply := none }) ∨
    (∃ rest, s.requests = .reset :: rest ∧ step s = .next s.resetEvent.complete) ∨
    (∃ w input rest, s.requests = .command w input :: rest ∧
      ((∃ why, decode w = .error why ∧ step s = .next (s.raise .illegalOperation).complete) ∨
        (∃ i, decode w = .ok i ∧ i.wellFormed = true ∧ step s = completing (exec i s)))) := by
  rcases h : s.requests with _ | ⟨(⟨w, input⟩ | _), rest⟩
  · exact .inl ⟨rfl, by simp [step, h, idle]⟩
  · refine .inr (.inr ⟨w, input, rest, rfl, ?_⟩)
    cases hd : decode w with
    | error why => exact .inl ⟨why, rfl, by simp [step, h, hd, execReserved]⟩
    | ok i => exact .inr ⟨i, rfl, decode_wellFormed w i hd, by simp [step, h, hd]⟩
  · exact .inr (.inl ⟨rest, rfl, by simp [step, h]⟩)

/-- The next states of a step: idle, the reset event, and for a command, the move completed, a fault of the
spec, a response with nothing else changed, or the constructed engine. -/
theorem step_next_cases (s t : State) (h : step s = .next t) :
    (s.requests = [] ∧ t = { s with reply := none }) ∨
    (∃ rest, s.requests = .reset :: rest ∧ t = s.resetEvent.complete) ∨
    (∃ w input rest, s.requests = .command w input :: rest ∧
      ((∃ f, t = (s.raise f).complete ∧
          (f = .configurationError → s.mode = .uninitialized ∧ s.cfgErr = false)) ∨
        (∃ v out, t = (s.respond v out).complete ∧ (out = [] ∨ out.length = v.toNat)) ∨
        (∃ k, s.mode = .uninitialized ∧ s.cfgErr = false ∧ 1 ≤ k ∧ k ≤ Config.maxSequenceLength ∧
          t = (s.constructed k).complete))) := by
  rcases step_cases s with ⟨hq, hs⟩ | ⟨rest, hq, hs⟩ | ⟨w, input, rest, hq, hc⟩
  · rw [h] at hs
    injection hs with hs
    exact .inl ⟨hq, hs⟩
  · rw [h] at hs
    injection hs with hs
    exact .inr (.inl ⟨rest, hq, hs⟩)
  · refine .inr (.inr ⟨w, input, rest, hq, ?_⟩)
    rcases hc with ⟨why, -, hs⟩ | ⟨i, -, hw, hs⟩
    · rw [h] at hs
      injection hs with hs
      exact .inl ⟨_, hs, by simp⟩
    · rcases exec_cases i s with
        ⟨f, he, hc, -⟩ | ⟨v, out, he, ho⟩ | ⟨k, -, hm, hc, h1, h2, he⟩ | ⟨n, f, -, -, he⟩ <;>
        rw [hs, he] at h <;> cases h
      · exact .inl ⟨f, rfl, hc⟩
      · refine .inr (.inl ⟨v, out, rfl, ?_⟩)
        rcases ho with ho | ⟨n, rfl, hv, hl⟩
        · exact .inl ho
        · have hn : n < 2 ^ 28 := of_decide_eq_true hw
          exact .inr (by rw [hv, hl, BitVec.toNat_ofNat, Nat.mod_eq_of_lt hn])
      · exact .inr (.inr ⟨k, hm, hc, h1, h2, rfl⟩)

/-- A Ready engine of R146 has a window to read, and it holds `G`. -/
theorem hasWindow_of_readyWith (k : Nat) (s : State) (h : ReadyWith k s) : HasWindow s.toEngine lfsrBit := by
  obtain ⟨-, hk, -, hle, hseq, -⟩ := h
  exact ⟨hk ▸ hle, fun j hj => hseq j (by omega)⟩

/-- A successful `INIT k` leaves a Ready engine (70_reset_and_hazards.md R146). -/
theorem readyWith_constructed (s : State) (k : Nat) (h1 : 1 ≤ k) (h2 : k ≤ Config.maxSequenceLength)
    (hc : s.cfgErr = false) : ReadyWith k (s.constructed k) :=
  ⟨rfl, rfl, h1, h2, fun t ht => read_generateTable s.seq t ht, rfl, hc⟩

end Sys2Proof.Machine
end

