-- ==== Sys2Proof/Laws/Harness.lean ====
section
/-! SUPPORT. What issuing an operation, completing it and making a run of moves can do, said once. -/

namespace Sys2Proof.Machine

/-- The move completed after an operation, in terms of the state before it. -/
theorem complete_of_exec (i : Instr) (s t : State) (h : exec i s = .next t) :
    t.complete = { t with requests := s.requests.tail, fresh := s.fresh + 1 } := by
  obtain ⟨hr, hf, -⟩ := exec_port i s t h
  simp [State.complete, hr, hf]

/-- The buffer of the operation issued is the bound one. -/
@[simp] theorem issuing_boundInput (s : State) (i : Instr) (input : List Bit) :
    (s.issuing i input).boundInput = input := rfl
@[simp] theorem issuing_toEngine (s : State) (i : Instr) (input : List Bit) :
    (s.issuing i input).toEngine = s.toEngine := rfl
@[simp] theorem issuing_fresh (s : State) (i : Instr) (input : List Bit) :
    (s.issuing i input).fresh = s.fresh := rfl

/-- Performing an operation that has a next state: the engine and the response are the operation's, and the
moves to come are those that were to come before it was issued. -/
theorem perform_next (i : Instr) (input : List Bit) (s t : State)
    (h : exec i (s.issuing i input) = .next t) :
    perform i input s = .next { t with requests := s.requests, fresh := s.fresh + 1 } := by
  rw [perform, h, completing_next, complete_of_exec i _ t h]
  rfl

@[simp] theorem run_nil (s : State) : run [] s = .next (s, []) := rfl

/-- A run of one more move first, forwards. -/
theorem run_cons (move : Request) (moves : List Request) (s t u : State) (replies : List Reply)
    (hs : step { s with requests := move :: s.requests } = .next t)
    (hr : run moves t = .next (u, replies)) :
    run (move :: moves) s = .next (u, t.reply.toList ++ replies) := by
  simp [run, hs, hr]

/-- A run of one more move first, taken apart. -/
theorem run_cons_inv (move : Request) (moves : List Request) (s u : State) (replies : List Reply)
    (h : run (move :: moves) s = .next (u, replies)) :
    ∃ t later, step { s with requests := move :: s.requests } = .next t ∧
      run moves t = .next (u, later) ∧ replies = t.reply.toList ++ later := by
  rw [run] at h
  split at h
  · cases h
  · cases h
  · rename_i t ht
    split at h
    · cases h
    · cases h
    · rename_i v later hl
      cases h
      exact ⟨t, later, ht, hl, rfl⟩

end Sys2Proof.Machine
end

