-- ==== Sys2Proof/Laws/PerInstr.lean ====
section
/-! SUPPORT. Per operation: the word of a well-formed operation matches its own row of the opcode map
(30_encoding.md R53). -/

namespace Sys2Proof.Laws.MatchesRow

/-- The encoded word, masked, is the `match` word of the operation's row. -/
def Statement (i : Instr) : Prop :=
  i.wellFormed = true → encode i &&& i.rowMask = i.rowMatch

/-- A 28-bit count leaves the operation code alone. -/
theorem count_below_opcode (n : Nat) (h : n < argLimit) : BitVec.ofNat 32 n &&& 0xF0000000#32 = 0 := by
  apply BitVec.eq_of_getLsbD_eq
  intro b hb
  have hm : ∀ c : Fin 32, c.1 < 28 → (0xF0000000#32).getLsbD c.1 = false := by decide
  by_cases h28 : b < 28
  · simp [hm ⟨b, hb⟩ h28]
  · have : n.testBit b = false :=
      Nat.testBit_lt_two_pow (lt_of_lt_of_le h (Nat.pow_le_pow_right (by omega) (by omega)))
    rw [BitVec.getLsbD_and, BitVec.getLsbD_ofNat, this]
    simp

theorem init (k : Nat) : Statement (.init k) := by
  intro h
  have hk : k < argLimit := by simpa [Instr.wellFormed] using h
  simp only [encode, Instr.rowMask, Instr.rowMatch]
  rw [BitVec.and_comm, BitVec.and_or_distrib_left, BitVec.and_comm _ (BitVec.ofNat 32 k),
    count_below_opcode k hk]
  decide

theorem proc (n : Nat) : Statement (.proc n) := by
  intro h
  have hn : n < argLimit := by simpa [Instr.wellFormed] using h
  simp only [encode, Instr.rowMask, Instr.rowMatch]
  rw [BitVec.and_comm, BitVec.and_or_distrib_left, BitVec.and_comm _ (BitVec.ofNat 32 n),
    count_below_opcode n hn]
  decide

theorem rdk : Statement .rdk := fun _ => by decide

theorem rdstat : Statement .rdstat := fun _ => by decide

theorem resolve (std : Standard) (cls : FrameClass) (rate : BitVec 8) :
    Statement (.resolve std cls rate) := by
  intro _
  have hr : rate.setWidth 32 &&& 0xFFFFF800#32 = 0 := by
    apply BitVec.eq_of_getLsbD_eq
    intro b hb
    have hm : ∀ c : Fin 32, c.1 < 11 → (0xFFFFF800#32).getLsbD c.1 = false := by decide
    by_cases h11 : b < 11
    · simp [hm ⟨b, hb⟩ h11]
    · simp [BitVec.getLsbD_of_ge rate b (by omega)]
  simp only [encode, Instr.rowMask, Instr.rowMatch]
  rw [BitVec.and_comm, BitVec.and_or_distrib_left, BitVec.and_comm _ (rate.setWidth 32), hr]
  cases std <;> cases cls <;> decide

end Sys2Proof.Laws.MatchesRow
end

