-- ==== Sys2Proof/Tests/Slice0.lean ====
section
/-! SUPPORT. The model's own tests: ill-formed terms, words written out from the spec's encodings, the
vectors of 95_test_vectors.md, and a witness for every statement that has hypotheses. -/

namespace Sys2Proof.Tests

open Sys2Proof.Machine

/-! ## Well-formedness: one ill-formed term for each check -/

theorem test_init_operand_too_wide : (Instr.init (2 ^ 28)).wellFormed = false := by decide
theorem test_proc_operand_too_wide : (Instr.proc (2 ^ 28)).wellFormed = false := by decide
theorem test_largest_operands : (Instr.init (2 ^ 28 - 1)).wellFormed = true ∧
    (Instr.proc (2 ^ 28 - 1)).wellFormed = true := by decide

/-! ## Decoding: words from 30_encoding.md R53 to R57, written as op, then the operand fields -/

/-- op 0x1; arg 7032 = 0001101101111000. -/
theorem test_decode_init :
    decode 0b0001_000000000000_0001101101111000#32 = .ok (.init 7032) := by decide
/-- op 0x2; arg 14064 = 0011011011110000. -/
theorem test_decode_proc :
    decode 0b0010_000000000000_0011011011110000#32 = .ok (.proc 14064) := by decide
/-- op 0x3; arg 0. -/
theorem test_decode_rdk : decode 0b0011_0000000000000000000000000000#32 = .ok .rdk := by decide
/-- op 0x4; arg 0. -/
theorem test_decode_rdstat : decode 0b0100_0000000000000000000000000000#32 = .ok .rdstat := by decide
/-- op 0x5; zero field; std 1; cls 01; rate 00000110. -/
theorem test_decode_resolve :
    decode 0b0101_00000000000000000_1_01_00000110#32 = .ok (.resolve .b .short 6) := by decide
/-- op 0x5; zero field; std 0; cls 10; rate 10000001. -/
theorem test_decode_resolve_medium :
    decode 0b0101_00000000000000000_0_10_10000001#32 = .ok (.resolve .a .medium 0x81) := by decide
theorem test_encode_words :
    encode (.init 7032) = 0x10001B78#32 ∧ encode (.proc 14064) = 0x200036F0#32 ∧
      encode .rdk = 0x30000000#32 ∧ encode .rdstat = 0x40000000#32 ∧
      encode (.resolve .b .medium 255) = 0x500006FF#32 := by decide

/-! ## Helpers -/

/-- The reply of an outcome, none where the step stops. -/
def replies : Host.Outcome State Fault Refusal → List Reply
  | .next s => s.reply.toList
  | .fault _ => []
  | .refused _ => []

/-- `STATUS` after an outcome, none where the step stops. -/
def statusOf : Host.Outcome State Fault Refusal → Option (BitVec 28)
  | .next s => some s.status
  | .fault _ => none
  | .refused _ => none

/-- A string of bits, first element first. -/
def bits (l : List Nat) : List Bit := l.map (· == 1)

/-- The Ready engine that `INIT k` leaves, no fault recorded. -/
def readyState (k : Nat) : State :=
  { State.reset with
    mode := .ready
    kbch := k
    sr := lfsrState Config.maxSequenceLength
    seq := generateTable [] }

/-- The reset state with one command to come. -/
def issued (w : Word32) : State := { State.reset with requests := [.command w []] }

theorem readyWith_readyState (k : Nat) (h1 : 1 ≤ k) (h2 : k ≤ Config.maxSequenceLength) :
    ReadyWith k (readyState k) :=
  ⟨rfl, rfl, h1, h2, fun t ht => read_generateTable [] t ht, rfl, rfl⟩

theorem readyState_8 : ReadyWith 8 (readyState 8) :=
  readyWith_readyState 8 (by omega) (by have := length_ge; omega)

theorem lifecycleInv_readyState (k : Nat) (h1 : 1 ≤ k) (h2 : k ≤ Config.maxSequenceLength) :
    LifecycleInv (readyState k) := by
  refine ⟨wf_generateTable [] List.Pairwise.nil, ?_, .inr ⟨k, readyWith_readyState k h1 h2, rfl⟩⟩
  intro x hx
  have := mem_tableCells _ _ _ x (by simpa [readyState, generateTable] using hx)
  omega

/-! ## One operation at a time (95_test_vectors.md sections 2 to 9) -/

/-- Section 2.2. -/
theorem test_genStep_corners :
    genStep 0x4000#15 = (false, 0x2000#15) ∧ genStep 0x7FFE#15 = (true, 0x7FFF#15) := by decide
/-- Section 3.1, `t = 64 .. 71`, and the register of section 3.2. -/
theorem test_sequence : (List.range' 64 8).map lfsrBit = bits [1, 1, 0, 0, 1, 0, 0, 1] ∧
    lfsrState 16 = 0x37E0#15 := by decide +kernel
/-- Section 5: `INIT 0` from reset. -/
theorem test_init_zero : replies (step (issued 0x10000000#32)) = [⟨0x40000000#32, []⟩] ∧
    statusOf (step (issued 0x10000000#32)) = some 0b0010 := by decide +kernel
/-- Section 5: `INIT 8` from reset. -/
theorem test_init_8 : replies (step (issued 0x10000008#32)) = [⟨8#32, []⟩] ∧
    statusOf (step (issued 0x10000008#32)) = some 1 := by decide +kernel
/-- Section 6: two frames of 8, the window restarts at the frame boundary. -/
theorem test_proc_two_frames :
    replies (perform (.proc 16) (bits [1,1,1,1,1,1,1,1, 0,0,0,0,0,0,0,0]) (readyState 8)) =
      [⟨16#32, bits [1,1,1,1,1,1,0,0, 0,0,0,0,0,0,1,1]⟩] := by decide +kernel
/-- Section 6: `kbch = 16`, one frame. -/
theorem test_proc_one_frame :
    replies (perform (.proc 16) (bits [1,0,1,1,0,0,1,0, 1,1,1,0,0,1,0,1]) (readyState 16)) =
      [⟨16#32, bits [1,0,1,1,0,0,0,1, 0,0,0,1,0,0,1,1]⟩] := by decide +kernel
/-- Section 6: not even the first whole frame of a misaligned call is processed. -/
theorem test_proc_misaligned : replies (exec (.proc 12) (readyState 8)) = [⟨0x80000000#32, []⟩] ∧
    statusOf (exec (.proc 12) (readyState 8)) = some 0b0101 := by decide +kernel
/-- Section 6: admission comes before the operand. -/
theorem test_proc_uninitialized : replies (exec (.proc 0) State.reset) = [⟨0xC0000000#32, []⟩] := by
  decide +kernel
/-- Section 7. -/
theorem test_rdk : replies (exec .rdk (readyState 7032)) = [⟨0x1B78#32, []⟩] ∧
    replies (exec .rdk State.reset) = [⟨0xC0000000#32, []⟩] := by decide +kernel
/-- Section 7, after `MisalignedInput`. -/
theorem test_rdstat :
    replies (exec .rdstat { readyState 8 with callErr := true }) = [⟨5#32, []⟩] := by decide +kernel
/-- Section 4, the word for RESOLVE A, SHORT and the code of 1/2. -/
theorem test_resolve : replies (exec (.resolve .a .short (Config.params.rateCode "1/2")) State.reset) =
    [⟨0x1B78#32, []⟩] := by
  have hr := Config.params.rateIds_named.2.2.1
  have hp := Config.params.kbchTable_printed.2.2.2
  simp only [exec, execResolve, replies, State.respond, kbchOf_rateCode _ _ hr, hp]
  decide
/-- Section 9, P3 steps 8 and 9: reserved words on a Ready engine with `CALL_ERR` set. -/
theorem test_reserved :
    statusOf (step { readyState 16 with callErr := true, requests := [.command 0x60000000#32 []] }) =
      some 0b1101 := by decide +kernel
/-- 70_reset_and_hazards.md R130: the reset event on a Ready engine. -/
theorem test_reset_event : statusOf (step { readyState 8 with requests := [.reset] }) = some 0 := by
  decide +kernel
/-- 20_memory.md R37 and 10_state.md R22: a step leaves neither the word nor the buffer of its move. -/
theorem test_buffer_is_not_kept :
    step ((readyState 8).issuing (.proc 8) (bits [1,0,1,0,1,0,1,0])) =
      .next { readyState 8 with fresh := 1, reply := some ⟨8#32, bits [1,0,1,0,1,0,0,1]⟩ } := by
  have h := execProc_window ((readyState 8).issuing (.proc 8) (bits [1,0,1,0,1,0,1,0])) lfsrBit
    (hasWindow_of_readyWith 8 _ readyState_8) 8 rfl (by decide) rfl
  have hout : outOf ((readyState 8).issuing (.proc 8) (bits [1,0,1,0,1,0,1,0])) lfsrBit 8 =
      bits [1,0,1,0,1,0,0,1] := by decide +kernel
  have hd : decode (encode (.proc 8)) = .ok (.proc 8) := by decide
  rw [hout] at h
  simp only [step, State.issuing] at h ⊢
  simp only [hd, exec, h]
  rfl
/-- Section 9, P1: a run of two moves, its responses in order and nothing of them in the state. -/
theorem test_run :
    (match run [.command 0x30000000#32 [], .command 0x40000000#32 []] (readyState 16) with
      | .next (t, l) => (t.reply, l.map Reply.rsp)
      | _ => (none, [])) = (some ⟨1#32, []⟩, [16#32, 1#32]) := by decide +kernel
/-- 30_encoding.md R60. -/
theorem test_written : Instr.written (.init 7032) = some "INIT 7032" ∧
    writtenResponse 0x1B78#32 = "-> OK 7032" ∧
    writtenResponse 0x40000000#32 = "-> ConfigurationError" := by decide +kernel

/-! ## Witnesses: every hypothesis of the statements can be met -/

/-- EncodeOfDecodedWord, OpcodeMapSpellsOperations, and each clause of DecodeAndEncodeAgree at the ends of
the operand fields. -/
theorem witness_decode :
    decode 0x1FFFFFFF#32 = .ok (.init 268435455) ∧ (Instr.init 268435455).wellFormed = true ∧
    decode 0x2FFFFFFF#32 = .ok (.proc 268435455) ∧ (Instr.proc 268435455).wellFormed = true ∧
    decode 0x10000000#32 = .ok (.init 0) ∧ decode 0x20000000#32 = .ok (.proc 0) ∧
    decode 0x30000000#32 = .ok .rdk ∧ decode 0x40000000#32 = .ok .rdstat ∧
    decode 0x50000000#32 = .ok (.resolve .a .normal 0) ∧
    decode 0x500006FF#32 = .ok (.resolve .b .medium 255) ∧
    decode 0xFFFFFFFF#32 = .error .opcode := by decide

/-- DecodeAndEncodeAgree, the clause of `RESOLVE`: a word and the fields it asks of it. -/
theorem witness_resolve_fields :
    (0x500006FF#32).extractLsb' 28 4 = 5#4 ∧ (0x500006FF#32).extractLsb' 11 17 = 0#17 ∧
    (0x500006FF#32).extractLsb' 8 2 = 2#2 ∧ (0x500006FF#32).getLsbD 10 = true := by decide

/-- ReservedWordRaisesIllegalOperation: a word for each kind of reserved word, at the ends of its range. -/
theorem witness_reserved :
    (issued 0#32).requests = [.command 0#32 []] ∧
    (0x00000000#32).extractLsb' 28 4 = 0#4 ∧ 6#4 ≤ (0x60000000#32).extractLsb' 28 4 ∧
    6#4 ≤ (0xF0000000#32).extractLsb' 28 4 ∧
    ((0x30000001#32).extractLsb' 28 4 = 3#4 ∧ (0x30000001#32).extractLsb' 0 28 ≠ 0#28) ∧
    ((0x4FFFFFFF#32).extractLsb' 28 4 = 4#4 ∧ (0x4FFFFFFF#32).extractLsb' 0 28 ≠ 0#28) ∧
    ((0x50000800#32).extractLsb' 28 4 = 5#4 ∧ (0x50000800#32).extractLsb' 11 17 ≠ 0#17) ∧
    ((0x50000300#32).extractLsb' 28 4 = 5#4 ∧ (0x50000300#32).extractLsb' 8 2 = 3#2) := by decide

/-- StepRunsDecodedOperation, FetchWordRunsTableWord, IdleStepHoldsState, ResetEventLeavesNoTable. -/
theorem witness_requests :
    (issued 0x30000000#32).requests = [.command 0x30000000#32 []] ∧
    decode 0x30000000#32 = .ok .rdk ∧ decodeTableWord 32 0x30000000 = some .rdk ∧
    State.reset.requests = [] ∧
    ({ State.reset with requests := [.reset] } : State).requests = [.reset] := by decide

/-- ResolveAnswersTableEntry, ResolvedFrameLengthIsAccepted. -/
theorem witness_rate : "1/4" ∈ Config.params.rateIds ∧ Config.params.kbchTable .normal "1/4" ≠ 0 := by
  have h := Config.params.kbchTable_printed.1
  exact ⟨Config.params.rateIds_named.1, by omega⟩

/-- ResolveUnmappedAnswersZero and the second clause of ConstructNetEffect: some pair is unmapped, since
MEDIUM has three entries and there are four named identifiers. -/
theorem witness_unmapped : ∃ rate : BitVec 8, ∀ r ∈ Config.params.rateIds,
    Config.params.rateCode r = rate → Config.params.kbchTable .medium r = 0 := by
  by_contra hn
  have hall : ∀ r ∈ Config.params.rateIds, Config.params.kbchTable .medium r ≠ 0 := by
    intro r hr h0
    refine hn ⟨Config.params.rateCode r, fun r' hr' hc => ?_⟩
    rwa [Config.params.rateCode_injective r' hr' r hr hc]
  have hlen := Config.params.medium_entries
  rw [List.filter_eq_self.2 (fun r hr => by simpa using hall r hr)] at hlen
  obtain ⟨h1, h2, h3, h4⟩ := Config.params.rateIds_named
  have hsub : ["1/4", "1/3", "1/2", "1/5"] ⊆ Config.params.rateIds := by
    intro r hr
    simp only [List.mem_cons, List.not_mem_nil, or_false] at hr
    rcases hr with rfl | rfl | rfl | rfl <;> assumption
  have := (List.Nodup.subperm (by decide : ["1/4", "1/3", "1/2", "1/5"].Nodup) hsub).length_le
  simp only [List.length_cons, List.length_nil] at this
  omega

/-- ConstructNetEffect, both clauses: a fresh engine, a pair with an entry, and one without. -/
theorem witness_construct : FreshReset State.reset ∧
    (∃ r ∈ Config.params.rateIds, Config.params.rateCode r = Config.params.rateCode "1/4" ∧
      Config.params.kbchTable .normal r ≠ 0) :=
  ⟨⟨rfl, rfl, rfl, rfl, rfl, rfl⟩, "1/4", witness_rate.1, rfl, witness_rate.2⟩

/-- LfsrLinearRecurrence: the sequence of the rule exists. -/
theorem witness_recurrence : ∃ a : Nat → Bit,
    (∀ k, k < 15 → a k = decide (k = 7 ∨ k = 9 ∨ k = 11 ∨ k = 14)) ∧
    (∀ t, a (t + 15) = (a t ^^ a (t + 1))) := by
  refine ⟨fun t => (lfsrState t).getLsbD 0, ?_, ?_⟩
  · have : ∀ k : Fin 15, (lfsrState k.1).getLsbD 0 =
        decide (k.1 = 7 ∨ k.1 = 9 ∨ k.1 = 11 ∨ k.1 = 14) := by decide +kernel
    exact fun k hk => this ⟨k, hk⟩
  · have low : ∀ m t, m ≤ 14 → (lfsrState (t + m)).getLsbD 0 = (lfsrState t).getLsbD m := by
      intro m
      induction m with
      | zero => intro t _; rfl
      | succ m ih =>
        intro t hm
        rw [show t + (m + 1) = t + 1 + m by omega, ih (t + 1) (by omega),
          lfsrState_succ_low t m (by omega)]
    intro t
    have h14 := low 14 (t + 1) (by omega)
    have h1 := low 1 t (by omega)
    simp only
    rw [show t + 15 = t + 1 + 14 by omega, h14, lfsrState_succ_top, h1]
    exact genBit_eq _

/-- SequencePeriod: the last clause at the least position it speaks of. -/
theorem witness_period : 32767 ≤ 32767 := by decide

/-- InitConstructsEngine and FaultPriority at both ends of the range of `k`; SequenceAfterInitIsG and
TablesAreIdentical: two constructions for different frame lengths. -/
theorem witness_init :
    (1 ≤ 1 ∧ 1 ≤ Config.maxSequenceLength) ∧
    (1 ≤ Config.maxSequenceLength ∧ Config.maxSequenceLength ≤ Config.maxSequenceLength) ∧
    Config.maxSequenceLength < Config.maxSequenceLength + 1 ∧
    (∃ t, exec (.init 1) State.reset = .next t ∧ State.reset.mode = .uninitialized ∧
      State.reset.cfgErr = false ∧ t.mode = .ready) ∧
    (∃ t, exec (.init Config.maxSequenceLength) State.reset = .next t ∧ t.mode = .ready) := by
  have h := length_ge
  refine ⟨by omega, by omega, by omega, ⟨State.reset.constructed 1, ?_, rfl, rfl, rfl⟩,
    ⟨State.reset.constructed Config.maxSequenceLength, ?_, rfl⟩⟩
  · exact execInit_constructs 1 _ rfl rfl (by omega) (by omega)
  · exact execInit_constructs _ _ rfl rfl (by omega) (by omega)

/-- FaultPriority and AdmissionTable: a Ready engine, a failed one, and `INIT 0` on a fresh one. -/
theorem witness_turned_away :
    (readyState 8).mode = .ready ∧ ({ State.reset with cfgErr := true } : State).cfgErr = true ∧
    State.reset.mode = .uninitialized ∧
    ¬ Admitted State.reset .rdk ∧ ¬ Admitted State.reset (.proc 0) ∧
    ¬ Admitted (readyState 8) (.init 8) ∧ Admitted State.reset (.init 8) ∧
    Admitted (readyState 8) (.proc 8) := by
  refine ⟨rfl, rfl, rfl, ?_, ?_, ?_, ⟨rfl, rfl⟩, rfl⟩ <;> simp [Admitted, readyState, State.reset]

/-- InitTableIsWriteLoop: a table to write into, empty or not. -/
theorem witness_table : Memory.wf [] ∧ Memory.wf [(3, true), (7, false)] := by decide

/-- ProcDescrambles, ProcEmptyCall, ZerosGiveTheWindow, RdkAnswersGranularity and RdstatAnswersStatus: Ready
engines at both ends of the range of `kbch`, no frame, one frame and two. -/
theorem witness_proc :
    ReadyWith 1 (readyState 1) ∧
    ReadyWith Config.maxSequenceLength (readyState Config.maxSequenceLength) ∧
    ReadyWith 8 (readyState 8) ∧ LifecycleInv (readyState 8) ∧
    0 % 8 = 0 ∧ 8 % 8 = 0 ∧ 16 % 8 = 0 := by
  have h := length_ge
  exact ⟨readyWith_readyState 1 (by omega) (by omega), readyWith_readyState _ (by omega) (by omega),
    readyState_8, lifecycleInv_readyState 8 (by omega) (by omega), rfl, rfl, rfl⟩

/-- ProcMisalignedCount just below and just above one frame. -/
theorem witness_misaligned : (readyState 8).mode = .ready ∧ 1 ≤ (readyState 8).kbch ∧
    7 % (readyState 8).kbch ≠ 0 ∧ 9 % (readyState 8).kbch ≠ 0 := by
  refine ⟨rfl, ?_, ?_, ?_⟩ <;> simp [readyState]

/-- ProcStopsWithoutWindow: a state for each stop. -/
theorem witness_stops :
    ({ readyState 8 with kbch := 0 } : State).kbch = 0 ∧
    (0 < Config.maxSequenceLength ∧ Memory.read ({ readyState 8 with seq := [] } : State).seq 0 = none ∧
      8 % 8 = 0) ∧
    (let s := readyState (Config.maxSequenceLength + 1)
     s.mode = .ready ∧ 1 ≤ s.kbch ∧ (Config.maxSequenceLength + 1) % s.kbch = 0 ∧
      Config.maxSequenceLength < s.kbch ∧
      ∀ u, u < Config.maxSequenceLength →
        u < Config.maxSequenceLength ∧ Memory.read s.seq u ≠ none) := by
  have h := length_ge
  refine ⟨rfl, ⟨by omega, rfl, rfl⟩, rfl, ?_, ?_, ?_, fun u hu => ⟨hu, ?_⟩⟩
  · simp [readyState]
  · simp [readyState]
  · simp [readyState]
  · simp [readyState, read_generateTable [] u hu]

/-- FrameIndependence: frame 1 of a call of two and frame 0 of a call of one, the other frame different. -/
theorem witness_frames :
    let s := (readyState 8).issuing (.proc 16) (bits [1,1,1,1,1,1,1,1, 1,0,1,0,1,0,1,0])
    let s' := (readyState 8).issuing (.proc 8) (bits [1,0,1,0,1,0,1,0])
    ReadyWith 8 s ∧ ReadyWith 8 s' ∧ 16 % 8 = 0 ∧ 8 % 8 = 0 ∧ 1 < 16 / 8 ∧ 0 < 8 / 8 ∧
      ∀ j, j < 8 → readIn s (1 * 8 + j) = readIn s' (0 * 8 + j) := by
  refine ⟨readyState_8, readyState_8, rfl, rfl, by decide, by decide, ?_⟩
  intro j hj
  interval_cases j <;> rfl

/-- DescramblingIsAnInvolution, CallsSplitAtFrameBoundaries, CallsCommute: buffers of whole frames. -/
theorem witness_buffers :
    let x := bits [1,0,1,1,0,0,1,0]
    let y := bits [0,0,0,0,0,0,0,0, 1,1,1,1,1,1,1,1]
    ReadyWith 8 (readyState 8) ∧ x.length % 8 = 0 ∧ y.length % 8 = 0 :=
  ⟨readyState_8, rfl, rfl⟩

/-- FaultChangesOneStickyBit and the reserved words of FaultPriority and AdmissionTable: a step that
raises each fault. -/
theorem witness_fault_step :
    (∃ t r, step (issued 0#32) = .next t ∧ t.reply = some r ∧ rspFault r.rsp = 3#2 ∧
      decode 0#32 = .error .opcode) ∧
    (∃ t r, step (issued 0x10000000#32) = .next t ∧ t.reply = some r ∧ rspFault r.rsp = 1#2) ∧
    (∃ t r, step { readyState 8 with requests := [.command 0x20000007#32 []] } = .next t ∧
      t.reply = some r ∧ rspFault r.rsp = 2#2) := by
  let m : State := { readyState 8 with requests := [.command 0x20000007#32 []] }
  refine ⟨⟨((issued 0#32).raise .illegalOperation).complete, _, rfl, rfl, by decide, by decide⟩,
    ⟨((issued 0x10000000#32).raise .configurationError).complete, _, ?_, rfl, by decide⟩,
    ⟨(m.raise .misalignedInput).complete, _, ?_, rfl, by decide⟩⟩
  · exact congrArg completing (execInit_out_of_range 0 (issued 0x10000000#32) rfl rfl (.inl rfl))
  · exact congrArg completing (execProc_misaligned m 7 rfl (by simp [m, readyState])
      (by simp [m, readyState]))

/-- OnlyResetClearsErrors and ReadyEngineIsReadOnly: steps with no reset event next, on a failed engine and
on a Ready one. -/
theorem witness_no_reset :
    (NoResetNext { State.reset with cfgErr := true } ∧
      FailedConstruction { State.reset with cfgErr := true } ∧
      step { State.reset with cfgErr := true } = .next { State.reset with cfgErr := true }) ∧
    (NoResetNext (readyState 8) ∧ (readyState 8).mode = .ready ∧
      step (readyState 8) = .next (readyState 8)) := by
  refine ⟨⟨?_, ⟨rfl, rfl⟩, rfl⟩, ?_, rfl, rfl⟩ <;>
    simp [NoResetNext, readyState, State.reset]

/-- StepKeepsLifecycleInv, LifecycleClassesAreExclusive, InvariantStepNeverStops and RunAnswersEveryCommand: a
state with the invariant that has a next state. -/
theorem witness_invariants :
    LifecycleInv (readyState 8) ∧ step (readyState 8) = .next (readyState 8) := by
  have h := length_ge
  exact ⟨lifecycleInv_readyState 8 (by omega) (by omega), rfl⟩

/-- StepKeepsResponseFormat, StepKeepsRunRecord and RunWentWrongIffErrorRecorded: a step that answers and a run of
one command, from a state with no fault recorded, no reset event among the moves, and a step that is one. -/
theorem witness_run :
    NoFaultRecorded State.reset ∧ NoResetNext (issued 0x40000000#32) ∧
    RunRecordAgrees [] (issued 0x40000000#32) ∧
    ¬ NoResetNext { State.reset with requests := [.reset] } ∧
    Request.reset ∉ [Request.command 0x40000000#32 []] ∧
    (∃ t r, step (issued 0x40000000#32) = .next t ∧ t.reply = some r) ∧
    (∃ t, run [.command 0x40000000#32 []] State.reset = .next (t, [⟨0#32, []⟩])) := by
  refine ⟨rfl, ?_, ?_, ?_, by decide, ⟨_, _, rfl, rfl⟩, ⟨_, rfl⟩⟩
  · simp [NoResetNext, issued]
  · simp [RunRecordAgrees, RunWentWrong, issued, State.reset, State.errorRecorded]
  · simp [NoResetNext]

/-- OperationsDependOnParametersOnly, CallsLeaveNoTrace and PerformIsStep: two states with the same engine and
the same move next, whose earlier responses and later moves differ, and a stop on both. -/
theorem witness_no_trace :
    let move : Request := .command 0x20000008#32 (bits [1,0,1,0,1,0,1,0])
    let s := { readyState 8 with requests := [move] }
    let s' := { readyState 8 with requests := [move, .reset], reply := some ⟨5#32, []⟩ }
    s'.toEngine = s.toEngine ∧ s'.fresh = s.fresh ∧ (∀ t, readIn s' t = readIn s t) ∧
    (∃ t, step s = .next t) ∧ (Instr.proc 8).wellFormed = true ∧
    step { s with kbch := 0 } = .fault .zeroFrameLength := by
  intro move s s'
  exact ⟨rfl, rfl, fun t => rfl,
    ⟨_, congrArg completing (execProc_window s lfsrBit (hasWindow_of_readyWith 8 s readyState_8) 8 rfl
      (by decide) (by decide))⟩, by decide, rfl⟩

/-- HiddenStateIsUnobservable: two states that differ in `sr`, and a stop on both. -/
theorem witness_hidden :
    SameToHarness (readyState 8) { readyState 8 with sr := 0 } ∧
    (∃ t, step (readyState 8) = .next t) ∧
    step { readyState 8 with kbch := 0, requests := [.command 0x20000008#32 []] } =
      .fault .zeroFrameLength :=
  ⟨⟨rfl, fun _ _ _ => rfl⟩, ⟨_, rfl⟩, rfl⟩

end Sys2Proof.Tests
end

section
/-! PROOF. The statements of 10_state.md: what a Ready engine keeps (R23) and what reset leaves (R26). -/

namespace Sys2Proof.Machine

/-- The next states of a step that is not the reset event; only a construction writes the engine's registers. -/
theorem step_next_cases_of_noResetNext (s t : State) (hn : NoResetNext s) (h : step s = .next t) :
    t = { s with reply := none } ∨
    (∃ f, t = (s.raise f).complete ∧
      (f = .configurationError → s.mode = .uninitialized ∧ s.cfgErr = false)) ∨
    (∃ v out, t = (s.respond v out).complete) ∨
    (∃ k, s.mode = .uninitialized ∧ s.cfgErr = false ∧ t = (s.constructed k).complete) := by
  rcases step_next_cases s t h with ⟨-, ht⟩ | ⟨rest, hq, -⟩ |
    ⟨-, -, -, -, ⟨f, ht, hf⟩ | ⟨v, out, ht, -⟩ | ⟨k, hm, hc, -, -, ht⟩⟩
  · exact .inl ht
  · exact absurd hq (hn rest)
  · exact .inr (.inl ⟨f, ht, hf⟩)
  · exact .inr (.inr (.inl ⟨v, out, ht⟩))
  · exact .inr (.inr (.inr ⟨k, hm, hc, ht⟩))

/-- Settles O39: on a Ready engine a step raises no `ConfigurationError` and constructs nothing, and the other
next states write only `CALL_ERR`, `OP_ERR` and the port. -/
theorem readyEngineIsReadOnly : Obligations.ReadyEngineIsReadOnly := by
  intro s t hm hn h
  rcases step_next_cases_of_noResetNext s t hn h with
    rfl | ⟨f, rfl, hf⟩ | ⟨v, out, rfl⟩ | ⟨k, hu, -, -⟩
  · exact ⟨hm, rfl, rfl, rfl, rfl⟩
  · have hne : f ≠ .configurationError := fun he => by simp [(hf he).1] at hm
    simp [hm, hne]
  · exact ⟨hm, rfl, rfl, rfl, rfl⟩
  · simp [hu] at hm

/-- Settles O40: every value is the one State.reset writes out, and the table is the empty list. -/
theorem resetStateValues : Obligations.ResetStateValues :=
  ⟨rfl, rfl, fun _ => rfl, rfl, rfl, rfl, rfl, rfl⟩

end Sys2Proof.Machine
end

section
/-! PROOF. The statement of 20_memory.md: two calls on a Ready engine commute (R40). What a call answers is a
function of the frame length and of its buffer alone. -/

namespace Sys2Proof.Machine

/-- The `OUT` of a `PROC` whose `IN` is the whole list, on a Ready engine of frame length `k`
(42_descrambler.md R96). -/
def descrambled (k : Nat) (input : List Bit) : List Bit :=
  input.mapIdx fun t b => b ^^ lfsrBit (t % k)

@[simp] theorem length_descrambled (k : Nat) (input : List Bit) :
    (descrambled k input).length = input.length := by
  simp [descrambled]

/-- What a `PROC` of the whole buffer answers on a Ready engine of frame length `k`. -/
def procReply (k : Nat) (input : List Bit) : Reply where
  rsp := okWord (BitVec.ofNat 28 input.length)
  out := descrambled k input

/-- A call over exactly the listed elements of `IN` reads no free value. -/
theorem outOf_length_boundInput (s : State) :
    outOf s lfsrBit s.boundInput.length = descrambled s.kbch s.boundInput := by
  refine List.ext_getElem (by simp) fun t ht _ => ?_
  have hlisted : t < s.boundInput.length := by simpa using ht
  simp [outOf, descrambled, readIn_listed s t hlisted]

/-- `PROC` of a buffer of whole frames on a Ready engine answers `procReply` and leaves the engine alone
(42_descrambler.md R96, R97). -/
theorem perform_proc_of_readyWith (k : Nat) (s : State) (input : List Bit) (h : ReadyWith k s)
    (hn : input.length % k = 0) :
    perform (.proc input.length) input s =
      .next { s with fresh := s.fresh + 1, reply := some (procReply k input) } := by
  have hwindow := hasWindow_of_readyWith k s h
  obtain ⟨hm, rfl, hk, -⟩ := h
  let call := s.issuing (.proc input.length) input
  have hexec : exec (.proc input.length) call =
      .next (call.respond (BitVec.ofNat 28 input.length) (outOf call lfsrBit input.length)) :=
    execProc_window call lfsrBit hwindow input.length hm hk hn
  have hout : outOf call lfsrBit input.length = descrambled s.kbch input :=
    outOf_length_boundInput call
  rw [perform_next _ _ _ _ hexec, hout]
  rfl

/-- Settles O31: a call answers `procReply`, which no earlier call takes part in, and changes only the port, so
the engine is still Ready for the other call. -/
theorem callsCommute : Obligations.CallsCommute := by
  intro k s x y h hx hy
  exact ⟨procReply k x, procReply k y,
    perform_proc_of_readyWith k s x h hx,
    perform_proc_of_readyWith k { s with fresh := s.fresh + 1, reply := some (procReply k x) } y h hy,
    perform_proc_of_readyWith k s y h hy,
    perform_proc_of_readyWith k { s with fresh := s.fresh + 1, reply := some (procReply k y) } x h hx,
    rspFault_okWord _, rspFault_okWord _⟩

end Sys2Proof.Machine
end

section
/-! PROOF. The statements of 30_encoding.md: the round trip (R63), the opcode map (R53) and the reserved words
(R58). Each rests on one relation, which word spells which operation, and on the fields of a word. -/

namespace Sys2Proof

/-! ## The fields of a command word (R51, R57) -/

/-- A word is its two fields, `op` above `arg` (30_encoding.md R51). -/
theorem eq_append_iff_fields (w : Word32) (op : BitVec 4) (arg : BitVec 28) :
    w = op ++ arg ↔ opField w = op ∧ argField w = arg := by
  constructor
  · rintro rfl
    exact ⟨BitVec.extractLsb'_append_eq_left, BitVec.extractLsb'_append_eq_right⟩
  · rintro ⟨rfl, rfl⟩
    exact (BitVec.extractLsb'_append_extractLsb' (w := 4) (len := 28) (x := w)).symm

@[simp] theorem opField_append (op : BitVec 4) (arg : BitVec 28) : opField (op ++ arg) = op :=
  BitVec.extractLsb'_append_eq_left

@[simp] theorem argField_append (op : BitVec 4) (arg : BitVec 28) : argField (op ++ arg) = arg :=
  BitVec.extractLsb'_append_eq_right

@[simp] theorem opField_and (w mask : Word32) : opField (w &&& mask) = opField w &&& opField mask :=
  BitVec.extractLsb'_and

@[simp] theorem argField_and (w mask : Word32) : argField (w &&& mask) = argField w &&& argField mask :=
  BitVec.extractLsb'_and

/-- The fields of `RESOLVE` lie within `arg`, so reading them from `arg` is reading them from the word. -/
theorem extractLsb'_argField (w : Word32) (start len : Nat) (h : start + len ≤ 28) :
    (argField w).extractLsb' start len = w.extractLsb' start len :=
  BitVec.extractLsb'_extractLsb'_of_le h

theorem getLsbD_argField (w : Word32) (i : Nat) (h : i < 28) : (argField w).getLsbD i = w.getLsbD i := by
  simp [argField, h]

/-- The value of the `std` field (30_encoding.md R57). -/
def Standard.field (std : Standard) : Bit := decide (std = .b)

/-- The value of the `cls` field (30_encoding.md R57). -/
def FrameClass.field : FrameClass → BitVec 2
  | .normal => 0
  | .short => 1
  | .medium => 2

@[simp] theorem Standard.ofBit_field (std : Standard) : Standard.ofBit std.field = std := by
  cases std <;> rfl

@[simp] theorem Standard.field_ofBit (b : Bit) : (Standard.ofBit b).field = b := by
  cases b <;> rfl

theorem FrameClass.ofField_eq_some_iff (c : BitVec 2) (cls : FrameClass) :
    FrameClass.ofField c = some cls ↔ c = cls.field := by
  revert c
  cases cls <;> decide

/-- The class field 3 is the one of no class (30_encoding.md R57). -/
theorem FrameClass.exists_eq_field_iff (c : BitVec 2) : (∃ cls, c = FrameClass.field cls) ↔ c ≠ 3#2 := by
  have hsome : FrameClass.ofField c ≠ none ↔ c ≠ 3#2 := by
    revert c
    decide
  simp only [← hsome, Option.ne_none_iff_exists', FrameClass.ofField_eq_some_iff]

/-! ## Which word spells which operation (R53, R54 to R57) -/

/-- The word `w` spells the operation: the row of the opcode map and the operands, read field by field. -/
def Spells (w : Word32) : Instr → Prop
  | .init k => opField w = 1 ∧ (argField w).toNat = k
  | .proc n => opField w = 2 ∧ (argField w).toNat = n
  | .rdk => opField w = 3 ∧ argField w = 0
  | .rdstat => opField w = 4 ∧ argField w = 0
  | .resolve std cls rate => opField w = 5 ∧ (argField w).extractLsb' 11 17 = 0 ∧
      (argField w).getLsbD 10 = std.field ∧ (argField w).extractLsb' 8 2 = cls.field ∧
      (argField w).extractLsb' 0 8 = rate

/-- The words that rule R53 assigns to an operation; every other word is reserved (R58). -/
def Assigned (w : Word32) : Prop :=
  opField w = 1 ∨ opField w = 2 ∨ (opField w = 3 ∧ argField w = 0) ∨
    (opField w = 4 ∧ argField w = 0) ∨
    (opField w = 5 ∧ (argField w).extractLsb' 11 17 = 0 ∧ (argField w).extractLsb' 8 2 ≠ 3#2)

theorem exists_spells_iff (w : Word32) : (∃ i, Spells w i) ↔ Assigned w := by
  constructor
  · rintro ⟨_ | _ | _ | _ | ⟨std, cls, rate⟩, h⟩
    · exact .inl h.1
    · exact .inr (.inl h.1)
    · exact .inr (.inr (.inl h))
    · exact .inr (.inr (.inr (.inl h)))
    · obtain ⟨hop, hzero, -, hcls, -⟩ := h
      exact .inr (.inr (.inr (.inr ⟨hop, hzero, (FrameClass.exists_eq_field_iff _).1 ⟨cls, hcls⟩⟩)))
  · rintro (h | h | h | h | ⟨hop, hzero, hcls⟩)
    · exact ⟨.init _, h, rfl⟩
    · exact ⟨.proc _, h, rfl⟩
    · exact ⟨.rdk, h⟩
    · exact ⟨.rdstat, h⟩
    · obtain ⟨cls, hcls⟩ := (FrameClass.exists_eq_field_iff _).2 hcls
      exact ⟨.resolve (Standard.ofBit _) cls _, hop, hzero, (Standard.field_ofBit _).symm, hcls, rfl⟩

/-! ## The decoder -/

theorem decodeNoOperand_eq_ok_iff (i j : Instr) (arg : BitVec 28) :
    decodeNoOperand i arg = .ok j ↔ arg = 0 ∧ i = j := by
  unfold decodeNoOperand
  split <;> simp_all

theorem decodeResolve_eq_ok_iff (arg : BitVec 28) (i : Instr) :
    decodeResolve arg = .ok i ↔ arg.extractLsb' 11 17 = 0 ∧
      ∃ cls, arg.extractLsb' 8 2 = FrameClass.field cls ∧
        .resolve (Standard.ofBit (arg.getLsbD 10)) cls (arg.extractLsb' 0 8) = i := by
  simp only [← FrameClass.ofField_eq_some_iff]
  unfold decodeResolve
  split
  · split <;> simp_all
  · simp_all

theorem decode_of_spells (w : Word32) (i : Instr) (h : Spells w i) : decode w = .ok i := by
  cases i with
  | init k =>
    obtain ⟨hop, rfl⟩ := h
    simp [decode, hop]
  | proc n =>
    obtain ⟨hop, rfl⟩ := h
    simp [decode, hop]
  | rdk =>
    obtain ⟨hop, harg⟩ := h
    simp [decode, hop, decodeNoOperand_eq_ok_iff, harg]
  | rdstat =>
    obtain ⟨hop, harg⟩ := h
    simp [decode, hop, decodeNoOperand_eq_ok_iff, harg]
  | resolve std cls rate =>
    obtain ⟨hop, hzero, hstd, hcls, rfl⟩ := h
    have hresolve : decodeResolve (argField w) = .ok (.resolve std cls _) :=
      (decodeResolve_eq_ok_iff _ _).2 ⟨hzero, cls, hcls, by rw [hstd, Standard.ofBit_field]⟩
    simp [decode, hop, hresolve]

theorem spells_of_decode (w : Word32) (i : Instr) (h : decode w = .ok i) : Spells w i := by
  unfold decode at h
  split at h
  next hop =>
    cases h
    exact ⟨BitVec.eq_of_toNat_eq hop, rfl⟩
  next hop =>
    cases h
    exact ⟨BitVec.eq_of_toNat_eq hop, rfl⟩
  next hop =>
    obtain ⟨harg, rfl⟩ := (decodeNoOperand_eq_ok_iff _ _ _).1 h
    exact ⟨BitVec.eq_of_toNat_eq hop, harg⟩
  next hop =>
    obtain ⟨harg, rfl⟩ := (decodeNoOperand_eq_ok_iff _ _ _).1 h
    exact ⟨BitVec.eq_of_toNat_eq hop, harg⟩
  next hop =>
    obtain ⟨hzero, cls, hcls, rfl⟩ := (decodeResolve_eq_ok_iff _ _).1 h
    exact ⟨BitVec.eq_of_toNat_eq hop, hzero, (Standard.field_ofBit _).symm, hcls, rfl⟩
  next => cases h

theorem decode_eq_ok_iff (w : Word32) (i : Instr) : decode w = .ok i ↔ Spells w i :=
  ⟨spells_of_decode w i, decode_of_spells w i⟩

theorem exists_decode_eq_ok_iff (w : Word32) : (∃ i, decode w = .ok i) ↔ Assigned w := by
  simp only [decode_eq_ok_iff, exists_spells_iff]

theorem decode_error_of_not_assigned (w : Word32) (h : ¬ Assigned w) : ∃ why, decode w = .error why := by
  cases hd : decode w with
  | ok i => exact absurd ((exists_decode_eq_ok_iff w).1 ⟨i, hd⟩) h
  | error why => exact ⟨why, rfl⟩

/-! ## The encoder -/

/-- An operand that fits its field, put below `op` by `OR`, is read back, and so is `op` (R54, R55). -/
theorem fields_or_ofNat (op : BitVec 4) (k : Nat) (hk : k < argLimit) :
    opField ((op ++ 0#28) ||| BitVec.ofNat 32 k) = op ∧
      (argField ((op ++ 0#28) ||| BitVec.ofNat 32 k)).toNat = k := by
  have hword : BitVec.ofNat 32 k = 0#4 ++ BitVec.ofNat 28 k := by
    rw [← BitVec.setWidth_ofNat_of_le_of_lt (by omega) hk, BitVec.setWidth_eq_append (by omega)]
    rfl
  have happend : (op ++ 0#28) ||| BitVec.ofNat 32 k = op ++ BitVec.ofNat 28 k :=
    calc (op ++ 0#28) ||| BitVec.ofNat 32 k
        = (op ||| 0#4) ++ (0#28 ||| BitVec.ofNat 28 k) := by rw [hword]; exact BitVec.or_append
      _ = op ++ BitVec.ofNat 28 k := by rw [BitVec.or_zero, BitVec.zero_or]
  rw [happend, opField_append, argField_append]
  exact ⟨rfl, (BitVec.toNat_ofNat k 28).trans (Nat.mod_eq_of_lt hk)⟩

/-- The fields of a word of `RESOLVE`, written one below the other (30_encoding.md R57). -/
theorem fields_of_append (op : BitVec 4) (zero : BitVec 17) (std : Bit) (cls : BitVec 2) (rate : BitVec 8) :
    let w := op ++ zero ++ BitVec.ofBool std ++ cls ++ rate
    w.extractLsb' 28 4 = op ∧ w.extractLsb' 11 17 = zero ∧ w.getLsbD 10 = std ∧
      w.extractLsb' 8 2 = cls ∧ w.extractLsb' 0 8 = rate := by
  intro w
  simp only [w, BitVec.extractLsb'_append_eq_of_le, BitVec.extractLsb'_append_eq_right,
    BitVec.getLsbD_append, Nat.reduceLeDiff, Nat.reduceSub]
  simp

/-- The word of `RESOLVE` is its five fields one below the other (30_encoding.md R57). -/
theorem encode_resolve_eq_append (std : Standard) (cls : FrameClass) (rate : BitVec 8) :
    encode (.resolve std cls rate) =
      5#4 ++ 0#17 ++ BitVec.ofBool std.field ++ cls.field ++ rate := by
  have hstd : (BitVec.ofBool std.field).setWidth 32 = std.code := by cases std <;> rfl
  have hcls : cls.field.setWidth 32 = cls.code := by cases cls <;> rfl
  have h := BitVec.setWidth_append_append_append_eq_shiftLeft_setWidth_or (w'''' := 32)
    (b := 5#4 ++ 0#17) (b' := BitVec.ofBool std.field) (b'' := cls.field) (b''' := rate)
  rw [hstd, hcls] at h
  exact h.symm.trans (BitVec.setWidth_eq _)

theorem spells_encode (i : Instr) (h : i.wellFormed = true) : Spells (encode i) i := by
  cases i with
  | init k => exact fields_or_ofNat 1 k (of_decide_eq_true h)
  | proc n => exact fields_or_ofNat 2 n (of_decide_eq_true h)
  | rdk => exact ⟨rfl, rfl⟩
  | rdstat => exact ⟨rfl, rfl⟩
  | resolve std cls rate =>
    obtain ⟨hop, hzero, hstd, hcls, hrate⟩ := fields_of_append 5 0 std.field cls.field rate
    rw [Spells, getLsbD_argField _ 10 (by omega), extractLsb'_argField _ 11 17 (by omega),
      extractLsb'_argField _ 8 2 (by omega), extractLsb'_argField _ 0 8 (by omega), encode_resolve_eq_append]
    exact ⟨hop, hzero, hstd, hcls, hrate⟩

/-- Settles O1: the decoder answers the operation the word spells, a word that spells none is reserved, and the
encoded word spells its operation. -/
theorem decodeAndEncodeAgree : Obligations.DecodeAndEncodeAgree := by
  refine ⟨fun i hi => decode_of_spells _ _ (spells_encode i hi), fun w => ⟨?_, ?_, ?_, ?_, ?_, ?_⟩,
    fun _ => rfl, fun _ => rfl, rfl, rfl, ?_⟩
  · exact fun hop => decode_of_spells w _ ⟨hop, rfl⟩
  · exact fun hop => decode_of_spells w _ ⟨hop, rfl⟩
  · exact fun hop harg => decode_of_spells w .rdk ⟨hop, harg⟩
  · exact fun hop harg => decode_of_spells w .rdstat ⟨hop, harg⟩
  · intro hop hzero _ std cls hstd hcls
    have hfield : (argField w).extractLsb' 8 2 = cls.field := by cases cls <;> exact hcls
    exact decode_of_spells w _ ⟨hop, hzero, hstd, hfield, rfl⟩
  · exact decode_error_of_not_assigned w
  · intro std cls rate
    cases std <;> cases cls <;> rfl

/-! ## The opcode map (R53) -/

/-- Masking a word masks its fields, so a row matches field by field. -/
theorem and_eq_append_iff (w mask : Word32) (op : BitVec 4) (arg : BitVec 28) :
    w &&& mask = op ++ arg ↔ opField w &&& opField mask = op ∧ argField w &&& argField mask = arg := by
  rw [eq_append_iff_fields, opField_and, argField_and]

/-- The rows of `INIT` and `PROC` ask for `op` only. -/
theorem and_opMask_eq_iff (w : Word32) (op : BitVec 4) :
    w &&& 0xF0000000#32 = op ++ 0#28 ↔ opField w = op := by
  rw [and_eq_append_iff, show opField 0xF0000000#32 = BitVec.allOnes 4 from rfl,
    show argField 0xF0000000#32 = 0#28 from rfl, BitVec.and_allOnes, BitVec.and_zero]
  simp

/-- The rows of `RDK` and `RDSTAT` ask for the whole word. -/
theorem and_wordMask_eq_iff (w : Word32) (op : BitVec 4) :
    w &&& 0xFFFFFFFF#32 = op ++ 0#28 ↔ opField w = op ∧ argField w = 0 := by
  rw [show 0xFFFFFFFF#32 = BitVec.allOnes 32 from rfl, BitVec.and_allOnes, eq_append_iff_fields]
  rfl

/-- The row of `RESOLVE` asks for `op` and the zero field of R57. -/
theorem and_resolveMask_eq_iff (w : Word32) :
    w &&& 0xFFFFF800#32 = 0x50000000#32 ↔ opField w = 5 ∧ (argField w).extractLsb' 11 17 = 0 := by
  have hmask : argField w &&& 0xFFFF800#28 = (argField w).extractLsb' 11 17 ++ 0#11 := by
    calc argField w &&& 0xFFFF800#28
        = ((argField w).extractLsb' 11 17 ++ (argField w).extractLsb' 0 11 : BitVec 28) &&&
            (BitVec.allOnes 17 ++ 0#11 : BitVec 28) :=
          congrArg (· &&& _) (BitVec.extractLsb'_append_extractLsb' (w := 17) (len := 11)).symm
      _ = (argField w).extractLsb' 11 17 ++ 0#11 := by
          rw [BitVec.and_append, BitVec.and_allOnes, BitVec.and_zero]
  rw [show 0x50000000#32 = 5#4 ++ 0#28 from rfl, and_eq_append_iff,
    show opField 0xFFFFF800#32 = BitVec.allOnes 4 from rfl, BitVec.and_allOnes,
    show argField 0xFFFFF800#32 = 0xFFFF800#28 from rfl, hmask,
    show 0#28 = 0#17 ++ 0#11 from rfl, BitVec.append_left_inj]
  rfl

theorem and_rowMask_of_spells (w : Word32) (i : Instr) (h : Spells w i) : w &&& i.rowMask = i.rowMatch := by
  cases i with
  | init k => exact (and_opMask_eq_iff w 1).2 h.1
  | proc n => exact (and_opMask_eq_iff w 2).2 h.1
  | rdk => exact (and_wordMask_eq_iff w 3).2 h
  | rdstat => exact (and_wordMask_eq_iff w 4).2 h
  | resolve std cls rate =>
    obtain ⟨hop, hzero, -⟩ := h
    exact (and_resolveMask_eq_iff w).2 ⟨hop, hzero⟩

theorem assigned_iff_matches_row (w : Word32) :
    Assigned w ↔
      ((w &&& 0xF0000000#32 = 0x10000000#32) ∨ (w &&& 0xF0000000#32 = 0x20000000#32) ∨
        (w &&& 0xFFFFFFFF#32 = 0x30000000#32) ∨ (w &&& 0xFFFFFFFF#32 = 0x40000000#32) ∨
        (w &&& 0xFFFFF800#32 = 0x50000000#32 ∧ w.extractLsb' 8 2 ≠ 3#2)) := by
  rw [and_resolveMask_eq_iff, and_assoc, ← extractLsb'_argField w 8 2 (by omega)]
  exact or_congr (and_opMask_eq_iff w 1).symm (or_congr (and_opMask_eq_iff w 2).symm
    (or_congr (and_wordMask_eq_iff w 3).symm (or_congr (and_wordMask_eq_iff w 4).symm Iff.rfl)))

/-- Every mask covers `op`, so a word that matches a row has the `op` of the row. -/
theorem opField_eq_of_matches_row (r : Word32 × Word32) (hr : r ∈ opcodeRows) (w : Word32)
    (h : w &&& r.2 = r.1) : opField w = opField r.1 := by
  have hmask : ∀ r ∈ opcodeRows, opField r.2 = BitVec.allOnes 4 := by simp [opcodeRows, opField]
  rw [← h, opField_and, hmask r hr, BitVec.and_allOnes]

/-- Settles O3: matching a row is reading its fields, every mask covers `op`, and the rows differ in `op`. -/
theorem opcodeMapSpellsOperations : Obligations.OpcodeMapSpellsOperations := by
  refine ⟨fun w => (exists_decode_eq_ok_iff w).trans (assigned_iff_matches_row w),
    fun w i h => and_rowMask_of_spells w i (spells_of_decode w i h), ?_, .opcode, rfl⟩
  have hop : opcodeRows.Pairwise fun r r' => opField r.1 ≠ opField r'.1 := by decide
  refine hop.imp_of_mem fun hr hr' hne w ⟨h, h'⟩ => hne ?_
  rw [← opField_eq_of_matches_row _ hr w h, ← opField_eq_of_matches_row _ hr' w h']

/-! ## Reserved words (R58) -/

theorem not_assigned_of_reserved (w : Word32)
    (h : opField w = 0#4 ∨ 6#4 ≤ opField w ∨ ((opField w = 3#4 ∨ opField w = 4#4) ∧ argField w ≠ 0) ∨
      (opField w = 5#4 ∧ (w.extractLsb' 11 17 ≠ 0 ∨ w.extractLsb' 8 2 = 3#2))) : ¬ Assigned w := by
  rw [← extractLsb'_argField w 11 17 (by omega), ← extractLsb'_argField w 8 2 (by omega)] at h
  rintro (hop | hop | ⟨hop, harg⟩ | ⟨hop, harg⟩ | ⟨hop, hzero, hcls⟩)
  · simp [hop] at h
  · simp [hop] at h
  · simp [hop, harg] at h
  · simp [hop, harg] at h
  · simp [hop, hzero, hcls] at h

end Sys2Proof

namespace Sys2Proof.Machine

/-- A reserved word, whatever the reason, raises `IllegalOperation` (30_encoding.md R58). -/
theorem step_of_decode_error (s : State) (w : Word32) (input : List Bit) (rest : List Request) (why : Reserved)
    (hq : s.requests = .command w input :: rest) (h : decode w = .error why) :
    step s = .next (s.raise .illegalOperation).complete := by
  simp [step, hq, h, execReserved]

/-- Settles O5: each of the four kinds of reserved word is assigned to no operation, so the step raises
the fault. -/
theorem reservedWordRaisesIllegalOperation : Obligations.ReservedWordRaisesIllegalOperation := by
  intro s w input rest hq hw
  obtain ⟨why, hd⟩ := decode_error_of_not_assigned w (not_assigned_of_reserved w hw)
  rw [step_of_decode_error s w input rest why hq hd, raise_eq]
  simp [State.complete, hq, faultWord, CoreFault.code]

end Sys2Proof.Machine
end

section
/-! PROOF. The statements of 40_resolver.md: unmapped pairs (R68), the standard variant (R67), the printed entries
(R70), the bound on the entries (R71), and `CONSTRUCT` (R72). Each rests on what `RESOLVE` answers, and the later
two on what `INIT` does with a value of the table. -/

namespace Sys2Proof.Machine

/-! ## The table lookup (R66, R68, R71) -/

/-- A pair with no entry, or a code of no identifier, is looked up as 0 (40_resolver.md R68). -/
theorem kbchOf_eq_zero_of_unmapped (cls : FrameClass) (rate : BitVec 8)
    (h : ∀ r ∈ Config.params.rateIds, Config.params.rateCode r = rate → Config.params.kbchTable cls r = 0) :
    kbchOf cls rate = 0 := by
  unfold kbchOf
  split
  next r hr =>
    obtain ⟨hmem, hcode⟩ := rateOfCode_eq_some rate r hr
    exact h r hmem hcode
  next => rfl

theorem kbchTable_le_length (cls : FrameClass) (r : RateId) :
    Config.params.kbchTable cls r ≤ Config.maxSequenceLength := by
  unfold Config.maxSequenceLength
  exact Config.params.kbchTable_le cls r

theorem mem_rateIds_of_kbchTable_ne_zero (cls : FrameClass) (r : RateId)
    (h : Config.params.kbchTable cls r ≠ 0) : r ∈ Config.params.rateIds := by
  by_contra hr
  exact h (Config.params.kbchTable_outside cls r hr)

/-- The largest NORMAL entry belongs to an identifier, since it is not 0. -/
theorem exists_kbchTable_normal_eq_length :
    ∃ r ∈ Config.params.rateIds, Config.params.kbchTable .normal r = Config.maxSequenceLength := by
  obtain ⟨r, hmax⟩ := Config.params.kbchTable_max
  refine ⟨r, mem_rateIds_of_kbchTable_ne_zero .normal r (by omega), ?_⟩
  unfold Config.maxSequenceLength
  exact hmax

/-! ## What `RESOLVE` answers (R65) -/

theorem exec_resolve (std : Standard) (cls : FrameClass) (rate : BitVec 8) (s : State) :
    exec (.resolve std cls rate) s = .next (s.respond (BitVec.ofNat 28 (kbchOf cls rate)) []) := rfl

theorem exec_resolve_of_entry (std : Standard) (cls : FrameClass) (r : RateId) (k : Nat) (s : State)
    (hr : r ∈ Config.params.rateIds) (hk : Config.params.kbchTable cls r = k) :
    exec (.resolve std cls (Config.params.rateCode r)) s = .next (s.respond (BitVec.ofNat 28 k) []) := by
  rw [exec_resolve, kbchOf_rateCode cls r hr, hk]

/-- Settles O11: both answer the lookup of the class and the rate. -/
theorem resolveIgnoresStandard : Obligations.ResolveIgnoresStandard := by
  intro s cls rate
  rw [exec_resolve, exec_resolve]

/-- Settles O12: the four entries are those the table is known to hold, and they fit the value field. -/
theorem resolvePrintedEntries : Obligations.ResolvePrintedEntries := by
  intro s std
  obtain ⟨hquarter, -, hhalf, hfifth⟩ := Config.params.rateIds_named
  obtain ⟨hnormal, hshort, hmedium, hshortHalf⟩ := Config.params.kbchTable_printed
  exact ⟨exec_resolve_of_entry std .normal "1/4" _ s hquarter hnormal,
    exec_resolve_of_entry std .short "1/4" _ s hquarter hshort,
    exec_resolve_of_entry std .medium "1/5" _ s hfifth hmedium,
    exec_resolve_of_entry std .short "1/2" _ s hhalf hshortHalf⟩

/-- Settles O10: the lookup gives 0, and 0 is no frame length. -/
theorem resolveUnmappedAnswersZero : Obligations.ResolveUnmappedAnswersZero := by
  intro s std cls rate h
  constructor
  · rw [exec_resolve, kbchOf_eq_zero_of_unmapped cls rate h]
    rfl
  · intro hm hc
    exact execInit_out_of_range 0 _ hm hc (.inl rfl)

/-! ## `INIT` of a frame length in range (R71) -/

/-- `INIT` of a frame length in range is turned away or constructs the engine. -/
theorem exec_init_in_range (k : Nat) (s : State) (h1 : 1 ≤ k) (h2 : k ≤ Config.maxSequenceLength) :
    exec (.init k) s = .next (s.raise .illegalOperation) ∨ exec (.init k) s = .next (s.constructed k) := by
  cases hm : s.mode with
  | ready => exact .inl (execInit_not_admitted k s (.inl hm))
  | uninitialized =>
    cases hc : s.cfgErr with
    | true => exact .inl (execInit_not_admitted k s (.inr hc))
    | false => exact .inr (execInit_constructs k s hm hc h1 h2)

/-- Settles O13: a nonzero entry is a frame length in range, and neither outcome of its `INIT` is
`ConfigurationError`. -/
theorem resolvedFrameLengthIsAccepted : Obligations.ResolvedFrameLengthIsAccepted := by
  refine ⟨kbchTable_le_length, exists_kbchTable_normal_eq_length, fun s cls r hne => ?_⟩
  rcases exec_init_in_range _ s (Nat.pos_of_ne_zero hne) (kbchTable_le_length cls r) with h | h
  · refine ⟨_, _, h, raise_reply s _, ?_, ?_⟩
    · rw [rspFault_faultWord]
      decide
    · simp
  · refine ⟨_, _, h, rfl, ?_, rfl⟩
    rw [rspFault_okWord]
    decide

/-! ## `CONSTRUCT` (R72) -/

/-- The state `RESOLVE` leaves once its move is over. -/
def State.resolved (s : State) (cls : FrameClass) (rate : BitVec 8) : State :=
  State.respond { s with fresh := s.fresh + 1 } (BitVec.ofNat 28 (kbchOf cls rate)) []

theorem perform_resolve (std : Standard) (cls : FrameClass) (rate : BitVec 8) (s : State) :
    perform (.resolve std cls rate) [] s = .next (s.resolved cls rate) :=
  perform_next _ _ _ _ (exec_resolve std cls rate _)

/-- No value of the table is cut off by the value field of the response. -/
theorem lastValue_resolved (s : State) (cls : FrameClass) (rate : BitVec 8) :
    (s.resolved cls rate).lastValue = kbchOf cls rate := by
  have hlt : kbchOf cls rate < 2 ^ 28 := lt_of_le_of_lt (kbchOf_le cls rate) length_lt
  calc (s.resolved cls rate).lastValue
      = (rspValue (okWord (BitVec.ofNat 28 (kbchOf cls rate)))).toNat := rfl
    _ = kbchOf cls rate := by
        rw [rspValue_okWord, BitVec.toNat_ofNat, Nat.mod_eq_of_lt hlt]

/-- `CONSTRUCT` ends where the `INIT` of the value looked up ends, and gives both responses. -/
theorem construct_eq_next (std : Standard) (cls : FrameClass) (rate : BitVec 8) (s u : State)
    (h : perform (.init (kbchOf cls rate)) [] (s.resolved cls rate) = .next u) :
    construct std cls rate s =
      .next (u, { rsp := okWord (BitVec.ofNat 28 (kbchOf cls rate)), out := [] } :: u.reply.toList) := by
  simp only [construct, perform_resolve, lastValue_resolved, h]
  rfl

theorem perform_init_constructs (k : Nat) (s : State) (hm : s.mode = .uninitialized) (hc : s.cfgErr = false)
    (h1 : 1 ≤ k) (h2 : k ≤ Config.maxSequenceLength) :
    perform (.init k) [] s = .next (State.constructed { s with fresh := s.fresh + 1 } k) :=
  perform_next (.init k) [] s _ (execInit_constructs k (s.issuing (.init k) []) hm hc h1 h2)

theorem perform_init_out_of_range (k : Nat) (s : State) (hm : s.mode = .uninitialized) (hc : s.cfgErr = false)
    (h : k = 0 ∨ Config.maxSequenceLength < k) :
    perform (.init k) [] s = .next (State.raise { s with fresh := s.fresh + 1 } .configurationError) :=
  perform_next (.init k) [] s _ (execInit_out_of_range k (s.issuing (.init k) []) hm hc h)

/-- Settles O14: the `INIT` of a nonzero value constructs the engine, and the `INIT 0` of an unmapped pair raises
`ConfigurationError`. -/
theorem constructNetEffect : Obligations.ConstructNetEffect := by
  rintro s std cls rate ⟨hm, -, -, hc, -, -⟩
  constructor
  · rintro r hr rfl hne
    rw [← kbchOf_rateCode cls r hr] at hne ⊢
    have h1 := Nat.pos_of_ne_zero hne
    have h2 := kbchOf_le cls (Config.params.rateCode r)
    exact ⟨_, construct_eq_next std cls _ s _ (perform_init_constructs _ _ hm hc h1 h2),
      readyWith_constructed _ _ h1 h2 hc⟩
  · intro h
    have hzero := kbchOf_eq_zero_of_unmapped cls rate h
    rw [construct_eq_next std cls rate s _ (perform_init_out_of_range _ _ hm hc (.inl hzero)),
      State.resolved, hzero]
    rfl

end Sys2Proof.Machine
end

section
/-! PROOF. The statements of 41_generator.md: one step of the register (R75), the register as a window on the
two-tap recurrence (R79) that is never 0 (R84), and the table every `INIT` leaves (R78, R81). -/

namespace Sys2Proof.Machine

/-! ## One step (R75) -/

/-- Settles O15: the source's steps are the definition, and the bits are those of `genBit_eq` and
`genNext_getLsbD`. -/
theorem genStepBits : Obligations.GenStepBits := by
  refine ⟨fun sr => ⟨rfl, rfl, genBit_eq sr, ?_, fun k hk => ?_⟩, by decide⟩
  · calc (genNext sr).getLsbD 14 = genBit sr := genNext_getLsbD sr 14 (by omega)
      _ = (sr.getLsbD 0 ^^ sr.getLsbD 1) := genBit_eq sr
  · exact (genNext_getLsbD sr k (by omega)).trans (if_neg (by omega))

/-! ## The register is never 0 (R84) -/

/-- 0 has no other predecessor: what the step does not shift out is bits 1 to 14, and bit 0 is then the
output. -/
theorem eq_zero_of_genNext_eq_zero (sr : ShiftReg) (h : genNext sr = 0#15) : sr = 0#15 := by
  have hshift : ∀ k, k < 14 → sr.getLsbD (k + 1) = false := fun k hk => by
    have := genNext_getLsbD sr k (by omega)
    rwa [h, BitVec.getLsbD_zero, if_neg (by omega), eq_comm] at this
  have hzero : sr.getLsbD 0 = false := by
    have := genNext_getLsbD sr 14 (by omega)
    rwa [h, BitVec.getLsbD_zero, if_pos rfl, genBit_eq, hshift 0 (by omega), Bool.xor_false, eq_comm] at this
  refine BitVec.eq_of_getLsbD_eq fun k hk => ?_
  rw [BitVec.getLsbD_zero]
  cases k with
  | zero => exact hzero
  | succ k => exact hshift k (by omega)

/-- Settles O18, by induction on `t` from the nonzero seed. -/
theorem lfsrNeverZero : Obligations.LfsrNeverZero := by
  refine ⟨by decide, fun t => ?_⟩
  induction t with
  | zero => rw [lfsrState_zero]; decide
  | succ t ih =>
    rw [lfsrState_succ]
    exact fun h => ih (eq_zero_of_genNext_eq_zero _ h)

/-! ## The two-tap recurrence (R79) -/

/-- The seed has the bits the rule lists. -/
theorem seed_getLsbD (k : Nat) (hk : k < 15) :
    seed.getLsbD k = decide (k = 7 ∨ k = 9 ∨ k = 11 ∨ k = 14) := by
  have : ∀ k : Fin 15, seed.getLsbD k = decide (k.1 = 7 ∨ k.1 = 9 ∨ k.1 = 11 ∨ k.1 = 14) := by decide
  exact this ⟨k, hk⟩

/-- The output at `t` is the XOR of the two low bits of `S(t)`. -/
theorem lfsrBit_eq (t : Nat) : lfsrBit t = ((lfsrState t).getLsbD 0 ^^ (lfsrState t).getLsbD 1) :=
  genBit_eq _

/-- The register is a window of fifteen values of the sequence `a` that moves on by one with each step. -/
theorem lfsrState_getLsbD_of_recurrence (a : Nat → Bit)
    (hseed : ∀ k, k < 15 → a k = decide (k = 7 ∨ k = 9 ∨ k = 11 ∨ k = 14))
    (hrec : ∀ t, a (t + 15) = (a t ^^ a (t + 1))) (t k : Nat) (hk : k < 15) :
    (lfsrState t).getLsbD k = a (t + k) := by
  induction t generalizing k with
  | zero => rw [lfsrState_zero, seed_getLsbD k hk, Nat.zero_add, hseed k hk]
  | succ t ih =>
    rcases Nat.lt_succ_iff_lt_or_eq.1 hk with hlow | rfl
    · rw [lfsrState_succ_low t k hlow, ih (k + 1) (by omega), Nat.add_right_comm, Nat.add_assoc]
    · rw [lfsrState_succ_top, lfsrBit_eq, ih 0 (by omega), ih 1 (by omega)]
      exact (hrec t).symm

/-- A bit of the register is the one that stood `m` places higher `m` steps before. -/
theorem lfsrState_add_getLsbD (t m k : Nat) (h : k + m < 15) :
    (lfsrState (t + m)).getLsbD k = (lfsrState t).getLsbD (k + m) := by
  induction m generalizing k with
  | zero => rfl
  | succ m ih =>
    rw [← Nat.add_assoc, lfsrState_succ_low _ k (by omega), ih (k + 1) (by omega), Nat.add_right_comm,
      Nat.add_assoc]

/-- After fifteen steps the register holds the last fifteen outputs. -/
theorem lfsrState_add_fifteen_getLsbD (t k : Nat) (hk : k < 15) :
    (lfsrState (t + 15)).getLsbD k = lfsrBit (t + k) := by
  calc (lfsrState (t + 15)).getLsbD k
      = (lfsrState (t + k + 1 + (14 - k))).getLsbD k := by congr 2; omega
    _ = (lfsrState (t + k + 1)).getLsbD (k + (14 - k)) := lfsrState_add_getLsbD _ _ _ (by omega)
    _ = (lfsrState (t + k + 1)).getLsbD 14 := by congr 1; omega
    _ = lfsrBit (t + k) := lfsrState_succ_top _

/-- `G` follows the recurrence itself. -/
theorem lfsrBit_add_fifteen (t : Nat) : lfsrBit (t + 15) = (lfsrBit t ^^ lfsrBit (t + 1)) := by
  rw [lfsrBit_eq, lfsrState_add_fifteen_getLsbD t 0 (by omega), lfsrState_add_fifteen_getLsbD t 1 (by omega)]
  rfl

/-- Settles O16: the register is a window on `a`, and `G(t)` is the top bit of the window at `t + 1`. -/
theorem lfsrLinearRecurrence : Obligations.LfsrLinearRecurrence := by
  refine ⟨fun a hseed hrec t => ?_, seed_getLsbD, lfsrBit_add_fifteen, by decide +kernel⟩
  have hwindow := lfsrState_getLsbD_of_recurrence a hseed hrec
  exact ⟨hwindow t, (lfsrState_succ_top t).symm.trans (hwindow (t + 1) 14 (by omega))⟩

/-! ## The table `INIT` leaves (R78, R81) -/

/-- An `INIT` that takes an engine from Uninitialized to Ready has constructed it: a fault or a bare response
leaves the mode as it was. -/
theorem eq_constructed_of_exec_init (k : Nat) (s t : State) (h : exec (.init k) s = .next t)
    (hs : s.mode = .uninitialized) (ht : t.mode = .ready) : t = s.constructed k := by
  rcases exec_cases (.init k) s with
    ⟨f, he, -⟩ | ⟨v, out, he, -⟩ | ⟨k', hk, -, -, -, -, he⟩ | ⟨n, f, -, -, he⟩ <;>
    rw [he] at h <;> cases h
  · simp [hs] at ht
  · simp [hs] at ht
  · cases hk
    rfl

/-- The table of a successful `INIT` holds `G`, whatever `k` and the state before it are. -/
theorem read_seq_of_exec_init (k : Nat) (s t : State) (h : exec (.init k) s = .next t)
    (hs : s.mode = .uninitialized) (ht : t.mode = .ready) (u : Nat) (hu : u < Config.maxSequenceLength) :
    Memory.read t.seq u = some (lfsrBit u) := by
  rw [eq_constructed_of_exec_init k s t h hs ht]
  exact read_generateTable s.seq u hu

/-- Settles O20: the recursion of `S` and `G` is `lfsrState_succ`, and the table of a successful `INIT` holds `G`. -/
theorem sequenceAfterInitIsG : Obligations.SequenceAfterInitIsG :=
  ⟨lfsrState_zero, fun t => Prod.ext rfl (lfsrState_succ t), by decide +kernel, read_seq_of_exec_init⟩

/-- Settles O23: both tables hold `G` in every entry. -/
theorem tablesAreIdentical : Obligations.TablesAreIdentical := by
  intro k k' s s' t t' hs h ht hs' h' ht' u hu
  have hread := read_seq_of_exec_init k s t h hs ht u hu
  have hread' := read_seq_of_exec_init k' s' t' h' hs' ht' u hu
  exact ⟨hread.trans hread'.symm, lfsrBit u, hread⟩

end Sys2Proof.Machine
end

section
/-! PROOF. The statements of 42_descrambler.md: what `PROC` answers (R93, R94, R96), frame by frame (R98), and how
its output depends on the buffer (R99, R103, R104). A call answers `descrambled`, which is an involution and goes
through a concatenation at a frame boundary. -/

namespace Sys2Proof.Machine

/-! ## One call (R93, R94, R96, R98) -/

/-- `PROC` of whole frames on a Ready engine of R146 (42_descrambler.md R96). -/
theorem exec_proc_of_readyWith (k n : Nat) (s : State) (h : ReadyWith k s) (hn : n % k = 0) :
    exec (.proc n) s = .next (s.respond (BitVec.ofNat 28 n) (outOf s lfsrBit n)) := by
  have hwindow := hasWindow_of_readyWith k s h
  obtain ⟨hm, rfl, hk, -⟩ := h
  exact execProc_window s lfsrBit hwindow n hm hk hn

/-- Bit `j` of frame `f` takes `seq[j]`, whichever frame it is. -/
theorem getElem?_outOf_frame (s : State) (w : Nat → Bit) (n f j : Nat) (hf : f < n / s.kbch) (hj : j < s.kbch) :
    (outOf s w n)[f * s.kbch + j]? = some (readIn s (f * s.kbch + j) ^^ w j) := by
  have hlt : f * s.kbch + j < n :=
    calc f * s.kbch + j < (f + 1) * s.kbch := by rw [Nat.succ_mul]; omega
      _ ≤ n / s.kbch * s.kbch := Nat.mul_le_mul_right _ hf
      _ ≤ n := Nat.div_mul_le_self _ _
  rw [getElem?_outOf s w n _ hlt, Nat.mul_add_mod_self_right, Nat.mod_eq_of_lt hj]

/-- Settles O24: the call answers `outOf`, and the entry it takes for position `t` is below `kbch`, where the table
holds `G`. -/
theorem procDescrambles : Obligations.ProcDescrambles := by
  intro k n s h hn
  refine ⟨_, exec_proc_of_readyWith k n s h hn, length_outOf _ _ _, fun t ht => ?_⟩
  obtain ⟨-, rfl, hk, hle, hseq, -⟩ := h
  have hentry : t % s.kbch < Config.maxSequenceLength := lt_of_lt_of_le (Nat.mod_lt t hk) hle
  rw [hseq _ hentry]
  exact ⟨getElem?_outOf _ _ _ _ ht, getElem?_outOf _ _ _ _ ht⟩

/-- Settles O28: bit `j` of either frame is its input bit XOR `G(j)`. -/
theorem frameIndependence : Obligations.FrameIndependence := by
  intro k n n' f f' s s' h h' hn hn' hf hf' hin
  refine ⟨_, _, exec_proc_of_readyWith k n s h hn, exec_proc_of_readyWith k n' s' h' hn', fun j hj => ?_⟩
  obtain ⟨-, rfl, -⟩ := h
  obtain ⟨-, hk', -⟩ := h'
  have hout := getElem?_outOf_frame s lfsrBit n f j hf hj
  have hout' := getElem?_outOf_frame s' lfsrBit n' f' j (hk' ▸ hf') (hk' ▸ hj)
  rw [hk', ← hin j hj] at hout'
  exact ⟨hout.trans hout'.symm, _, hout⟩

/-- Settles O25: the entry check raises the fault before the loop reads anything. -/
theorem procMisalignedCount : Obligations.ProcMisalignedCount :=
  fun n s hm hk hn => execProc_misaligned s n hm hk hn

/-- Settles O26: 0 is a whole number of frames, of which there are none, so no window is needed. -/
theorem procEmptyCall : Obligations.ProcEmptyCall := by
  intro s hm hk
  have hk0 : s.kbch ≠ 0 := Nat.ne_of_gt hk
  have hexec : execProc 0 s = .next (s.respond 0#28 []) := by
    simp [execProc, hm, hk0, procFrames]
  exact hexec

/-! ## The output as a function of the buffer (R99, R103, R104) -/

/-- The same `G` is put on twice (42_descrambler.md R99). -/
@[simp] theorem descrambled_descrambled (k : Nat) (x : List Bit) : descrambled k (descrambled k x) = x :=
  List.ext_getElem (by simp) fun t _ _ => by simp [descrambled]

/-- Behind whole frames the table position starts at 0 again (42_descrambler.md R104). -/
theorem descrambled_append (k : Nat) (x y : List Bit) (hx : x.length % k = 0) :
    descrambled k (x ++ y) = descrambled k x ++ descrambled k y := by
  have hpos : ∀ t, (t + x.length) % k = t % k := fun t => by
    rw [Nat.add_mod, hx, Nat.add_zero, Nat.mod_mod]
  simp only [descrambled, List.mapIdx_append, hpos]

/-- A frame of zeros gives the window, since `0 XOR b = b` (42_descrambler.md R103). -/
theorem descrambled_zero_frame (k : Nat) :
    descrambled k (List.replicate k false) = (List.range k).map lfsrBit := by
  refine List.ext_getElem (by simp) fun t ht _ => ?_
  have hlt : t < k := by simpa using ht
  simp [descrambled, Nat.mod_eq_of_lt hlt]

theorem descrambled_zero_frames (k frames : Nat) :
    descrambled k (List.replicate (frames * k) false) =
      (List.replicate frames ((List.range k).map lfsrBit)).flatten := by
  induction frames with
  | zero => simp [descrambled]
  | succ frames ih =>
    rw [Nat.succ_mul, Nat.add_comm, List.replicate_add, descrambled_append k _ _ (by simp),
      descrambled_zero_frame, ih, List.replicate_succ, List.flatten_cons]

/-- The window is what a frame of zeros gives, so it gives the zeros back. -/
theorem descrambled_window (k : Nat) :
    descrambled k ((List.range k).map lfsrBit) = List.replicate k false := by
  rw [← descrambled_zero_frame, descrambled_descrambled]

/-- `perform_proc_of_readyWith` for a count and an output given in another form than the buffer gives them. -/
theorem perform_proc_of_descrambled_eq (k n : Nat) (s : State) (input out : List Bit) (h : ReadyWith k s)
    (hlen : input.length = n) (hn : n % k = 0) (hout : descrambled k input = out) :
    perform (.proc n) input s =
      .next { s with fresh := s.fresh + 1, reply := some { rsp := okWord (BitVec.ofNat 28 n), out := out } } := by
  subst hlen hout
  exact perform_proc_of_readyWith k s input h hn

/-- Settles O29: `descrambled` is an involution. -/
theorem descramblingIsAnInvolution : Obligations.DescramblingIsAnInvolution := by
  intro k s s' x h h' hx
  exact ⟨descrambled k x, length_descrambled k x, perform_proc_of_readyWith k s x h hx,
    perform_proc_of_descrambled_eq k _ s' _ x h' (length_descrambled k x) hx (descrambled_descrambled k x)⟩

/-- Settles O30: the parts are whole frames, and the first call leaves a Ready engine for the second. -/
theorem callsSplitAtFrameBoundaries : Obligations.CallsSplitAtFrameBoundaries := by
  intro k s x y h hx hy
  have hxy : (x.length + y.length) % k = 0 := by rw [Nat.add_mod, hx, hy, Nat.zero_mod]
  refine ⟨descrambled k x, descrambled k y, ?_, ?_, ?_⟩
  · exact perform_proc_of_readyWith k s x h hx
  · exact perform_proc_of_readyWith k { s with fresh := s.fresh + 1, reply := some (procReply k x) } y h hy
  · exact perform_proc_of_descrambled_eq k _ s (x ++ y) _ h List.length_append hxy (descrambled_append k x y hx)

/-- Settles O32: frames of zeros give the window over and over, and the window gives zeros. -/
theorem zerosGiveTheWindow : Obligations.ZerosGiveTheWindow := by
  intro k s h
  refine ⟨fun frames => ?_, fun t ht => ?_, ?_⟩
  · exact perform_proc_of_descrambled_eq k _ s _ _ h List.length_replicate (Nat.mul_mod_left frames k)
      (descrambled_zero_frames k frames)
  · obtain ⟨-, -, -, hle, hseq, -⟩ := h
    exact hseq t (by omega)
  · exact perform_proc_of_descrambled_eq k _ s _ _ h (by simp) (Nat.mod_self k) (descrambled_window k)

end Sys2Proof.Machine
end

section
/-! PROOF. The statement of 43_status.md about `RDSTAT` (R106), from the bits of `STATUS` (R18). -/

namespace Sys2Proof.Machine

/-- `RDSTAT` responds in every state (43_status.md R106). -/
theorem exec_rdstat (s : State) : exec .rdstat s = .next (s.respond s.status []) := rfl

/-- The response word holds the value in its low bits and zeros above (30_encoding.md R52). -/
theorem okWord_getLsbD (v : BitVec 28) (b : Nat) : (okWord v).getLsbD b = v.getLsbD b := by
  by_cases hb : b < 32
  · simp [okWord, hb]
  · have hge : 28 ≤ b := by omega
    simp [okWord, hb, BitVec.getLsbD_of_ge v b hge]

/-- The bits of `STATUS`, `READY` first; all bits past the four are zero (10_state.md R18). -/
theorem status_getLsbD (s : State) (b : Nat) :
    s.status.getLsbD b = [s.ready, s.cfgErr, s.callErr, s.opErr].getD b false := by
  unfold State.status
  -- `getLsbD_append` needs the width 28 as the sum of the widths of the fields.
  change BitVec.getLsbD (w := 24 + 1 + 1 + 1 + 1) _ b = _
  simp only [BitVec.getLsbD_append]
  rcases b with _ | _ | _ | _ | b <;> simp

/-- A Ready engine has had no failed construction (10_state.md R18, 70_reset_and_hazards.md R146). -/
theorem cfgErr_eq_false_of_ready (s : State) (h : LifecycleInv s) (hm : s.mode = .ready) : s.cfgErr = false := by
  obtain ⟨-, -, ⟨hu, -, -⟩ | ⟨k, ⟨-, -, -, -, -, -, hc⟩, -⟩⟩ := h
  · simp [hm] at hu
  · exact hc

/-- Settles O34: the response is `okWord` of `STATUS`, whose bits are the fields, and `STATUS` is 0 after reset. -/
theorem rdstatAnswersStatus : Obligations.RdstatAnswersStatus := by
  refine ⟨fun s => ?_, exec_rdstat State.reset⟩
  have hbit : ∀ b, (okWord s.status).getLsbD b = [s.ready, s.cfgErr, s.callErr, s.opErr].getD b false :=
    fun b => (okWord_getLsbD s.status b).trans (status_getLsbD s b)
  refine ⟨okWord s.status, exec_rdstat s, hbit 0, hbit 1, hbit 2, hbit 3, fun b hb => ?_, fun h ⟨hready, hcfg⟩ => ?_⟩
  · rw [hbit b]
    exact List.getD_eq_default _ _ hb
  · have hm : s.mode = .ready := (ready_eq_true s).1 ((hbit 0).symm.trans hready)
    have hc : s.cfgErr = true := (hbit 1).symm.trans hcfg
    simp [cfgErr_eq_false_of_ready s h hm] at hc

end Sys2Proof.Machine
end

section
/-! PROOF. The statements of 60_exceptions.md: the admission table (R121), the order of the checks (R115), and what
a fault changes (R113). The first two rest on what an operation answers where the table turns it away and where it
admits it. -/

namespace Sys2Proof.Machine

/-! ## Operations turned away and admitted (R114, R121) -/

theorem mode_eq_uninitialized_of_ne_ready (s : State) (h : s.mode ≠ .ready) : s.mode = .uninitialized := by
  cases hm : s.mode
  · rfl
  · exact absurd hm h

/-- An operation that is not admitted raises `IllegalOperation`, whatever its operand (60_exceptions.md R114, R121). -/
theorem exec_of_not_admitted (i : Instr) (s : State) (h : ¬ Admitted s i) :
    exec i s = .next (s.raise .illegalOperation) := by
  cases i with
  | init k =>
    refine execInit_not_admitted k s ?_
    by_contra hcon
    obtain ⟨hm, hc⟩ := not_or.1 hcon
    exact h ⟨mode_eq_uninitialized_of_ne_ready s hm, Bool.eq_false_of_not_eq_true hc⟩
  | proc n => exact execProc_not_ready s n (mode_eq_uninitialized_of_ne_ready s h)
  | rdk => exact if_pos h
  | rdstat => exact absurd trivial h
  | resolve std cls rate => exact absurd trivial h

/-- The next states of `PROC` on a Ready engine (42_descrambler.md R91, R93). -/
theorem execProc_next_of_ready (n : Nat) (s t : State) (hm : s.mode = .ready) (h : execProc n s = .next t) :
    t = s.raise .misalignedInput ∨ ∃ v out, t = s.respond v out := by
  rw [execProc, if_neg (not_not.2 hm)] at h
  split_ifs at h with hk hn
  · cases h
    exact .inl rfl
  · split at h
    · cases h
    · cases h
      exact .inr ⟨_, _, rfl⟩

/-- The next states of an admitted operation: only its operand can still fault, and only `INIT` writes the engine
otherwise (60_exceptions.md R115, R121). -/
theorem exec_next_of_admitted (i : Instr) (s t : State) (ha : Admitted s i) (h : exec i s = .next t) :
    t = s.raise .misalignedInput ∨ (∃ v out, t = s.respond v out) ∨
    (∃ k, i = .init k ∧ (t = s.raise .configurationError ∨ t = s.constructed k)) := by
  cases i with
  | init k =>
    obtain ⟨hm, hc⟩ := ha
    refine .inr (.inr ⟨k, rfl, ?_⟩)
    by_cases hk : k = 0 ∨ Config.maxSequenceLength < k
    · cases (execInit_out_of_range k s hm hc hk).symm.trans h
      exact .inl rfl
    · cases (execInit_constructs k s hm hc (by omega) (by omega)).symm.trans h
      exact .inr rfl
  | proc n => exact (execProc_next_of_ready n s t ha h).imp_right .inl
  | rdk =>
    have hexec : exec .rdk s = .next (s.respond (BitVec.ofNat 28 s.kbch) []) := if_neg (not_not.2 ha)
    cases hexec.symm.trans h
    exact .inr (.inl ⟨_, _, rfl⟩)
  | rdstat =>
    cases (exec_rdstat s).symm.trans h
    exact .inr (.inl ⟨_, _, rfl⟩)
  | resolve std cls rate =>
    cases (exec_resolve std cls rate s).symm.trans h
    exact .inr (.inl ⟨_, _, rfl⟩)

/-- An admitted operation leaves `OP_ERR` alone and does not answer `IllegalOperation` (60_exceptions.md R121). -/
theorem opErr_of_admitted (i : Instr) (s t : State) (ha : Admitted s i) (h : exec i s = .next t) :
    t.opErr = s.opErr ∧ ∃ r, t.reply = some r ∧ rspFault r.rsp ≠ 3#2 := by
  have hok : ∀ v, rspFault (okWord v) ≠ 3#2 := fun v => by
    rw [rspFault_okWord]
    decide
  rcases exec_next_of_admitted i s t ha h with rfl | ⟨v, out, rfl⟩ | ⟨k, -, rfl | rfl⟩
  · exact ⟨by simp, _, raise_reply s _, by decide⟩
  · exact ⟨rfl, _, rfl, hok v⟩
  · exact ⟨by simp, _, raise_reply s _, by decide⟩
  · exact ⟨rfl, _, rfl, hok _⟩

/-- Only an admitted `INIT` takes an engine out of its lifecycle class (60_exceptions.md R121). -/
theorem lifecycle_of_exec (i : Instr) (s t : State) (h : exec i s = .next t) :
    (t.mode = s.mode ∧ t.cfgErr = s.cfgErr) ∨
    ((∃ k, i = .init k) ∧ s.mode = .uninitialized ∧ s.cfgErr = false ∧
      ((t.mode = .ready ∧ t.cfgErr = false) ∨ (t.mode = .uninitialized ∧ t.cfgErr = true))) := by
  by_cases ha : Admitted s i
  · rcases exec_next_of_admitted i s t ha h with rfl | ⟨v, out, rfl⟩ | ⟨k, rfl, ht⟩
    · exact .inl (by simp)
    · exact .inl ⟨rfl, rfl⟩
    · obtain ⟨hm, hc⟩ := ha
      refine .inr ⟨⟨k, rfl⟩, hm, hc, ?_⟩
      rcases ht with rfl | rfl
      · exact .inr (by simp [hm])
      · exact .inl ⟨rfl, hc⟩
  · cases (exec_of_not_admitted i s ha).symm.trans h
    exact .inl (by simp)

/-- Settles O35: the operations turned away and those admitted are told apart above; the reset event and a reserved
word are steps of their own. -/
theorem admissionTable : Obligations.AdmissionTable := by
  refine ⟨exec_of_not_admitted, opErr_of_admitted, lifecycle_of_exec, fun s rest hq => ?_,
    fun s w input rest why hq hd => ?_⟩
  · have hstep : step s = .next s.resetEvent.complete := by simp [step, hq]
    exact ⟨_, hstep, rfl, rfl⟩
  · exact ⟨_, step_of_decode_error s w input rest why hq hd, rfl, rfl, rfl, rfl⟩

/-! ## A fault changes one sticky bit (R113) -/

/-- The code in a response tells which fault was raised (60_exceptions.md R110). -/
theorem rspFault_faultWord_eq_code_iff (f g : CoreFault) : rspFault (faultWord f) = g.code ↔ f = g := by
  rw [rspFault_faultWord]
  cases f <;> cases g <;> decide

/-- A raise, in terms of the code its response carries (60_exceptions.md R110, R113). -/
theorem raise_eq_of_code (s : State) (f : CoreFault) :
    s.raise f =
      { s with
        cfgErr := s.cfgErr || decide (rspFault (faultWord f) = 1#2)
        callErr := s.callErr || decide (rspFault (faultWord f) = 2#2)
        opErr := s.opErr || decide (rspFault (faultWord f) = 3#2)
        reply := some { rsp := faultWord f, out := [] } } := by
  have hcfg : rspFault (faultWord f) = 1#2 ↔ f = .configurationError :=
    rspFault_faultWord_eq_code_iff f .configurationError
  have hcall : rspFault (faultWord f) = 2#2 ↔ f = .misalignedInput :=
    rspFault_faultWord_eq_code_iff f .misalignedInput
  have hop : rspFault (faultWord f) = 3#2 ↔ f = .illegalOperation :=
    rspFault_faultWord_eq_code_iff f .illegalOperation
  simp only [hcfg, hcall, hop, raise_eq]

/-- Settles O37: a step on a command whose response is not an `okWord` has raised a fault. -/
theorem faultChangesOneStickyBit : Obligations.FaultChangesOneStickyBit := by
  intro s t w input rest r hq h hr hfault
  rcases step_next_cases s t h with ⟨hnil, -⟩ | ⟨rest', hreset, -⟩ |
    ⟨-, -, -, -, ⟨f, rfl, -⟩ | ⟨v, out, rfl, -⟩ | ⟨k, -, -, -, -, rfl⟩⟩
  · simp [hq] at hnil
  · simp [hq] at hreset
  · obtain rfl : { rsp := faultWord f, out := [] } = r := by simpa using hr
    refine ⟨rfl, rspValue_faultWord f, ?_⟩
    rw [raise_eq_of_code]
    simp [State.complete, hq]
  · cases hr
    exact absurd (rspFault_okWord v) hfault
  · cases hr
    exact absurd (rspFault_okWord _) hfault

/-! ## Decode before admission before operand (R115) -/

/-- Settles O36: a reserved word is no operation, one turned away answers before its operand is looked at, and what
is left is the range check of `INIT` and the entry check of `PROC`. -/
theorem faultPriority : Obligations.FaultPriority := by
  refine ⟨fun i s t h => ?_, fun s t w input rest why hq hd h => ?_, exec_of_not_admitted,
    execInit_out_of_range, procMisalignedCount⟩
  · obtain ⟨-, -, hreply⟩ := exec_port i s t h
    exact Option.isSome_iff_exists.1 hreply
  · cases (step_of_decode_error s w input rest why hq hd).symm.trans h
    exact ⟨rfl, rfl, rfl, rfl⟩

end Sys2Proof.Machine
end

section
/-! PROOF. The statement of 70_reset_and_hazards.md: what the reset event leaves (R131), read off the reset state
(R26). -/

namespace Sys2Proof.Machine

/-- A step on the reset event is that event, with the move then dropped (70_reset_and_hazards.md R130). -/
theorem step_of_reset (s : State) (rest : List Request) (hq : s.requests = .reset :: rest) :
    step s = .next s.resetEvent.complete := by
  simp [step, hq]

/-- The state before the event shows in no bit of `STATUS`: all four are those of the reset state (10_state.md R26). -/
theorem status_resetEvent_complete (s : State) : s.resetEvent.complete.status = State.reset.status := rfl

/-- Settles O41: the reset event gives the mode, `kbch`, the table and `STATUS` their values of `State.reset`, whatever
they were; the queue alone is kept, and the move at its head dropped. -/
theorem resetEventLeavesNoTable : Obligations.ResetEventLeavesNoTable := by
  intro s rest hq
  obtain ⟨-, -, hunwritten, -, -, -, -, hstatus⟩ := resetStateValues
  have hrequests : s.resetEvent.complete.requests = rest := by simp [hq]
  exact ⟨s.resetEvent.complete, step_of_reset s rest hq, rfl, rfl, hunwritten,
    (status_resetEvent_complete s).trans hstatus, hrequests⟩

end Sys2Proof.Machine
end

section
/-! PROOF. What every step keeps: the lifecycle invariant (70_reset_and_hazards.md section 5), the agreement of the
run record with the sticky bits (R143), the sticky bits themselves (10_state.md R18), and the form of a response
(30_encoding.md R52). Each is read off `step_next_cases`; the statements about runs follow by induction on the moves. -/

namespace Sys2Proof.Machine

/-! ## The lifecycle invariant (70_reset_and_hazards.md section 5) -/

/-- The invariant speaks of the engine only. -/
theorem LifecycleInv.of_toEngine_eq {s t : State} (h : LifecycleInv s) (he : t.toEngine = s.toEngine) :
    LifecycleInv t := by
  obtain ⟨e, q, r, n⟩ := s
  obtain ⟨e', q', r', n'⟩ := t
  obtain rfl : e' = e := he
  exact h

/-- Under the invariant an engine is Uninitialized with no table, or Ready with the whole table. -/
theorem LifecycleInv.uninitialized_or_readyWith {s : State} (h : LifecycleInv s) :
    (s.mode = .uninitialized ∧ s.kbch = 0 ∧ s.seq = []) ∨ ∃ k, ReadyWith k s := by
  obtain ⟨-, -, hu | ⟨k, hr, -⟩⟩ := h
  · exact .inl hu
  · exact .inr ⟨k, hr⟩

theorem LifecycleInv.exists_readyWith {s : State} (h : LifecycleInv s) (hm : s.mode = .ready) :
    ∃ k, ReadyWith k s := by
  rcases h.uninitialized_or_readyWith with ⟨hu, -, -⟩ | hr
  · simp [hm] at hu
  · exact hr

theorem lifecycleInv_of_uninitialized {s : State} (hm : s.mode = .uninitialized) (hk : s.kbch = 0)
    (hseq : s.seq = []) : LifecycleInv s :=
  ⟨by simp [Memory.wf, hseq], by simp [hseq], .inl ⟨hm, hk, hseq⟩⟩

/-- A fault keeps the invariant, for `ConfigurationError` is raised by an Uninitialized engine only. -/
theorem lifecycleInv_raise {s : State} {f : CoreFault} (h : LifecycleInv s)
    (hf : f = .configurationError → s.mode = .uninitialized) : LifecycleInv (s.raise f) := by
  obtain ⟨hwf, hlt, ⟨hm, hk, hseq⟩ | ⟨k, ⟨hm, hk, h1, h2, hread, hready, hc⟩, hsr⟩⟩ := h
  · exact ⟨by simpa using hwf, by simpa using hlt, .inl (by simp [hm, hk, hseq])⟩
  · have hne : f ≠ .configurationError := fun he => by simp [hf he] at hm
    exact ⟨by simpa using hwf, by simpa using hlt, .inr ⟨k, ⟨by simpa using hm, by simpa using hk, h1, h2,
      by simpa using hread, by simpa using hready, by simp [hc, hne]⟩, by simpa using hsr⟩⟩

/-- The table `INIT` leaves lies within `SEQ` (20_memory.md R30). -/
theorem lt_length_of_mem_generateTable {m : Memory} (hm : ∀ x ∈ m, x.1 < Config.maxSequenceLength)
    (x : Nat × Bit) (hx : x ∈ generateTable m) : x.1 < Config.maxSequenceLength := by
  rcases List.mem_append.1 hx with hcell | hold
  · have := mem_tableCells _ _ _ x hcell
    omega
  · exact hm x (List.mem_of_mem_filter hold)

theorem lifecycleInv_constructed {s : State} {k : Nat} (h : LifecycleInv s) (hc : s.cfgErr = false)
    (h1 : 1 ≤ k) (h2 : k ≤ Config.maxSequenceLength) : LifecycleInv (s.constructed k) := by
  obtain ⟨hwf, hlt, -⟩ := h
  exact ⟨wf_generateTable s.seq hwf, lt_length_of_mem_generateTable hlt,
    .inr ⟨k, readyWith_constructed s k h1 h2 hc, rfl⟩⟩

/-- Settles O43: of the next states only a fault and a construction touch what the invariant speaks of. -/
theorem stepKeepsLifecycleInv : Obligations.StepKeepsLifecycleInv := by
  intro s t h hstep
  rcases step_next_cases s t hstep with ⟨-, rfl⟩ | ⟨rest, -, rfl⟩ |
    ⟨-, -, -, -, ⟨f, rfl, hf⟩ | ⟨v, out, rfl, -⟩ | ⟨k, -, hc, h1, h2, rfl⟩⟩
  · exact h.of_toEngine_eq rfl
  · exact lifecycleInv_of_uninitialized rfl rfl rfl
  · exact (lifecycleInv_raise h fun he => (hf he).1).of_toEngine_eq rfl
  · exact h.of_toEngine_eq rfl
  · exact (lifecycleInv_constructed h hc h1 h2).of_toEngine_eq rfl

/-- Under the invariant every operation has a next state: only a `PROC` on a Ready engine could stop, and that one
has its whole window to read. -/
theorem exec_next_of_lifecycleInv (i : Instr) (s : State) (h : LifecycleInv s) : ∃ t, exec i s = .next t := by
  rcases exec_cases i s with ⟨f, he, -⟩ | ⟨v, out, he, -⟩ | ⟨k, -, -, -, -, -, he⟩ | ⟨n, f, rfl, hm, -⟩
  · exact ⟨_, he⟩
  · exact ⟨_, he⟩
  · exact ⟨_, he⟩
  · obtain ⟨k, hr⟩ := h.exists_readyWith hm
    by_cases hn : n % k = 0
    · exact ⟨_, exec_proc_of_readyWith k n s hr hn⟩
    · obtain ⟨-, rfl, hk, -⟩ := hr
      exact ⟨_, execProc_misaligned s n hm hk hn⟩

/-- Settles O45: only the operation of a step could stop. -/
theorem invariantStepNeverStops : Obligations.InvariantStepNeverStops := by
  intro s h
  rcases step_cases s with ⟨-, hs⟩ | ⟨rest, -, hs⟩ | ⟨-, -, -, -, ⟨why, -, hs⟩ | ⟨i, -, -, hs⟩⟩
  · exact ⟨_, hs⟩
  · exact ⟨_, hs⟩
  · exact ⟨_, hs⟩
  · obtain ⟨t, ht⟩ := exec_next_of_lifecycleInv i s h
    exact ⟨t.complete, by rw [hs, ht, completing_next]⟩

/-! ## The run record (70_reset_and_hazards.md R143) -/

@[simp] theorem errorRecorded_raise (s : State) (f : CoreFault) : (s.raise f).errorRecorded = true := by
  cases f <;> simp [State.errorRecorded]

@[simp] theorem errorRecorded_resetEvent (s : State) : s.resetEvent.errorRecorded = false := rfl

@[simp] theorem errorRecorded_complete (s : State) : s.complete.errorRecorded = s.errorRecorded := rfl

@[simp] theorem not_runWentWrong_nil : ¬ RunWentWrong [] := by simp [RunWentWrong]

theorem runWentWrong_append (l l' : List Reply) :
    RunWentWrong (l ++ l') ↔ RunWentWrong l ∨ RunWentWrong l' := by
  simp [RunWentWrong, or_and_right, exists_or]

theorem runWentWrong_singleton (r : Reply) : RunWentWrong [r] ↔ rspFault r.rsp ≠ 0 := by
  simp [RunWentWrong]

/-- A step other than the reset event records an error exactly if it answers a fault. -/
theorem errorRecorded_step_iff (s t : State) (hn : NoResetNext s) (h : step s = .next t) :
    t.errorRecorded = true ↔ s.errorRecorded = true ∨ RunWentWrong t.reply.toList := by
  have hok : ∀ v out, ¬ RunWentWrong [⟨okWord v, out⟩] := fun v out =>
    (runWentWrong_singleton _).not.2 (not_not.2 (rspFault_okWord v))
  rcases step_next_cases_of_noResetNext s t hn h with
    rfl | ⟨f, rfl, -⟩ | ⟨v, out, rfl⟩ | ⟨k, -, -, rfl⟩
  · exact (or_iff_left not_runWentWrong_nil).symm
  · have hfault : RunWentWrong [⟨faultWord f, []⟩] := by
      rw [runWentWrong_singleton, rspFault_faultWord]
      exact code_ne_zero f
    simp [hfault]
  · exact (or_iff_left (hok _ _)).symm
  · exact (or_iff_left (hok _ _)).symm

/-- A reset event is all that can be next where `NoResetNext` fails. -/
theorem exists_reset_of_not_noResetNext (s : State) (h : ¬ NoResetNext s) :
    ∃ rest, s.requests = .reset :: rest := by
  simpa [NoResetNext] using h

/-- Settles O47: a step adds to the record a fault exactly if it sets a sticky bit, and the reset event clears
both. -/
theorem stepKeepsRunRecord : Obligations.StepKeepsRunRecord := by
  intro replies s t hagree h
  refine ⟨fun hn => ?_, fun hreset => ?_⟩
  · rw [RunRecordAgrees, runWentWrong_append, errorRecorded_step_iff s t hn h]
    exact or_congr_left hagree
  · obtain ⟨rest, hq⟩ := exists_reset_of_not_noResetNext s hreset
    cases (step_of_reset s rest hq).symm.trans h
    simp [RunRecordAgrees]

/-- A run of commands keeps the agreement of the record of everything answered before it and in it. -/
theorem runRecordAgrees_run (moves : List Request) (hmoves : Request.reset ∉ moves) :
    ∀ (before replies : List Reply) (s t : State), RunRecordAgrees before s →
      run moves s = .next (t, replies) → RunRecordAgrees (before ++ replies) t := by
  induction moves with
  | nil =>
    intro before replies s t hagree hrun
    cases hrun
    rwa [List.append_nil]
  | cons move moves ih =>
    intro before replies s t hagree hrun
    obtain ⟨hne, hmoves⟩ := List.ne_and_not_mem_of_not_mem_cons hmoves
    obtain ⟨u, later, hstep, hlater, rfl⟩ := run_cons_inv move moves s t replies hrun
    have hn : NoResetNext { s with requests := move :: s.requests } := fun rest hq =>
      hne (List.cons.inj hq).1.symm
    have hissued : RunRecordAgrees before { s with requests := move :: s.requests } := hagree
    rw [← List.append_assoc]
    exact ih hmoves _ _ u t ((stepKeepsRunRecord before _ u hissued hstep).1 hn) hlater

/-- Settles O49: with no fault recorded the record starts empty. -/
theorem runWentWrongIffErrorRecorded : Obligations.RunWentWrongIffErrorRecorded := by
  intro moves s t replies hclean hmoves hrun
  have hstart : RunRecordAgrees [] s := by
    have hs : s.errorRecorded = false := hclean
    simp [RunRecordAgrees, hs]
  exact runRecordAgrees_run moves hmoves [] replies s t hstart hrun

/-! ## What a step leaves of the port (10_state.md R22), and runs of any moves (70_reset_and_hazards.md R145) -/

/-- A step that takes a move drops it and answers it, unless it is the reset event. -/
theorem port_of_step (s t : State) (move : Request) (rest : List Request) (hq : s.requests = move :: rest)
    (h : step s = .next t) : t.requests = rest ∧ (t.reply = none ↔ move = .reset) := by
  rcases step_next_cases s t h with ⟨hnil, -⟩ | ⟨rest', hq', rfl⟩ |
    ⟨w, input, rest', hq', ⟨f, rfl, -⟩ | ⟨v, out, rfl, -⟩ | ⟨k, -, -, -, -, rfl⟩⟩
  · simp [hq] at hnil
  all_goals
    rw [hq] at hq'
    cases hq'
    simp [hq, State.constructed]

/-- A step answers as many responses as the move counts for. -/
theorem length_reply_of_step (s t : State) (move : Request) (rest : List Request)
    (hq : s.requests = move :: rest) (h : step s = .next t) :
    t.reply.toList.length = if move ≠ .reset then 1 else 0 := by
  obtain ⟨-, hreply⟩ := port_of_step s t move rest hq h
  by_cases hm : move = .reset
  · simp [hm, hreply.2 hm]
  · obtain ⟨r, hr⟩ := Option.ne_none_iff_exists'.1 (hreply.not.2 hm)
    simp [hm, hr]

/-- Settles O50, by induction on the moves: each step has a next state with the invariant, in which the moves that
were to come before are to come again. -/
theorem runAnswersEveryCommand : Obligations.RunAnswersEveryCommand := by
  intro moves
  induction moves with
  | nil => exact fun s h => ⟨s, [], run_nil s, h, rfl, rfl⟩
  | cons move moves ih =>
    intro s h
    have hissued : LifecycleInv { s with requests := move :: s.requests } := h.of_toEngine_eq rfl
    obtain ⟨u, hstep⟩ := invariantStepNeverStops _ hissued
    obtain ⟨t, replies, hrun, ht, hrequests, hlength⟩ := ih u (stepKeepsLifecycleInv _ u hissued hstep)
    obtain ⟨hu, -⟩ := port_of_step _ u move s.requests rfl hstep
    refine ⟨t, _, run_cons move moves s u t replies hstep hrun, ht, hrequests.trans hu, ?_⟩
    rw [List.length_append, length_reply_of_step _ u move s.requests rfl hstep, hlength, List.countP_cons,
      Nat.add_comm]
    simp

/-! ## The form of a response (30_encoding.md R52) -/

theorem replyWellFormed_fault (f : CoreFault) : ReplyWellFormed { rsp := faultWord f, out := [] } :=
  ⟨rspZero_faultWord f, fun _ => ⟨rspValue_faultWord f, rfl⟩, .inl rfl⟩

theorem replyWellFormed_ok (v : BitVec 28) (out : List Bit) (h : out = [] ∨ out.length = v.toNat) :
    ReplyWellFormed { rsp := okWord v, out := out } :=
  ⟨rspZero_okWord v, fun hne => absurd (rspFault_okWord v) hne, by rwa [rspValue_okWord]⟩

/-- Settles O46: a response is a fault's word with no output, or `OK v` with `v` elements or none. -/
theorem stepKeepsResponseFormat : Obligations.StepKeepsResponseFormat := by
  intro s t r h hr
  rcases step_next_cases s t h with ⟨-, rfl⟩ | ⟨rest, -, rfl⟩ |
    ⟨-, -, -, -, ⟨f, rfl, -⟩ | ⟨v, out, rfl, hout⟩ | ⟨k, -, -, -, -, rfl⟩⟩
  · cases hr
  · cases hr
  · obtain rfl : { rsp := faultWord f, out := [] } = r := by simpa using hr
    exact replyWellFormed_fault f
  · cases hr
    exact replyWellFormed_ok v out hout
  · cases hr
    exact replyWellFormed_ok _ [] (.inl rfl)

/-! ## Sticky bits (10_state.md R18) -/

/-- Settles O38: no step but the reset event clears a bit, and a failed construction admits no `INIT`. -/
theorem onlyResetClearsErrors : Obligations.OnlyResetClearsErrors := by
  intro s t h hn
  rcases step_next_cases_of_noResetNext s t hn h with
    rfl | ⟨f, rfl, -⟩ | ⟨v, out, rfl⟩ | ⟨k, -, hc, rfl⟩
  · exact ⟨id, id, id, fun hfail => ⟨hfail, rfl, rfl, rfl⟩⟩
  · refine ⟨fun hb => by simp [hb], fun hb => by simp [hb], fun hb => by simp [hb], ?_⟩
    rintro ⟨hm, hb⟩
    simp [FailedConstruction, hm, hb]
  · exact ⟨id, id, id, fun hfail => ⟨hfail, rfl, rfl, rfl⟩⟩
  · exact ⟨id, id, id, fun hfail => by simp [hfail.2] at hc⟩

/-! ## Reset and the lifecycle classes (70_reset_and_hazards.md R146) -/

/-- Settles O42: State.reset is Uninitialized with no table and no bit set, and nothing has been answered. -/
theorem resetMeetsInvariants : Obligations.ResetMeetsInvariants := by
  refine ⟨lifecycleInv_of_uninitialized rfl rfl rfl, ?_, ⟨rfl, rfl, rfl, rfl, rfl, rfl⟩, rfl⟩
  have hclean : State.reset.errorRecorded = false := rfl
  simp [RunRecordAgrees, hclean]

/-- Settles O44: the classes differ in the mode or in `CFG_ERR`, and `k` is the engine's `kbch`. -/
theorem lifecycleClassesAreExclusive : Obligations.LifecycleClassesAreExclusive := by
  intro s h
  have hnotReady : s.mode = .uninitialized → ¬ ∃ k, ReadyWith k s := by
    rintro hm ⟨k, hr, -⟩
    simp [hm] at hr
  refine ⟨?_, ?_, fun ⟨hf, hr⟩ => hnotReady hf.1 hr, fun ⟨hf, hr⟩ => hnotReady hf.1.1 hr, ?_⟩
  · rcases h.uninitialized_or_readyWith with ⟨hm, -, hseq⟩ | hr
    · cases hc : s.cfgErr with
      | false => exact .inl ⟨hm, rfl, hseq⟩
      | true => exact .inr (.inl ⟨⟨hm, hc⟩, hseq⟩)
    · exact .inr (.inr hr)
  · rintro ⟨⟨-, hc, -⟩, ⟨-, hc'⟩, -⟩
    simp [hc] at hc'
  · rintro k k' ⟨-, hk, -⟩ ⟨-, hk', -⟩
    exact hk.symm.trans hk'

end Sys2Proof.Machine
end

section
/-! PROOF. What a step depends on: the engine and the parameters of the step (10_state.md R22), of which the word
decodes to the operation the step runs (30_encoding.md R51), and nothing of `sr` or of the table outside the window
(10_state.md R24). -/

namespace Sys2Proof.Machine

/-! ## A step runs the operation its word decodes to (20_memory.md R39) -/

theorem step_of_decode_ok (s : State) (w : Word32) (input : List Bit) (rest : List Request) (i : Instr)
    (hq : s.requests = .command w input :: rest) (h : decode w = .ok i) : step s = completing (exec i s) := by
  simp [step, hq, h]

/-- Settles O6: the move completed after the operation is dropped, and the counter advances. -/
theorem stepRunsDecodedOperation : Obligations.StepRunsDecodedOperation := by
  intro s w input rest i hq hd
  refine ⟨boundInput_cons s w input rest hq, ?_⟩
  rw [step_of_decode_ok s w input rest i hq hd]
  cases he : exec i s with
  | next t => rw [completing_next, complete_of_exec i s t he, hq, List.tail_cons]
  | fault f => rfl
  | refused r => rfl

/-- What the decoder reads from the table's bits is what it reads from the word they stand for. -/
theorem decode_tableWord (nbits w : Nat) (i : Instr) (h : decodeTableWord nbits w = some i) :
    decode (tableWord nbits w) = .ok i := by
  unfold decodeTableWord at h
  split at h
  · cases hd : decode (tableWord nbits w) with
    | ok j =>
      rw [hd] at h
      cases h
      rfl
    | error why =>
      rw [hd] at h
      cases h
  · cases h

/-- Settles O7: the placed word is at the head of the requests, in front of those that were there. -/
theorem fetchWordRunsTableWord : Obligations.FetchWordRunsTableWord := fun s nbits w i h =>
  (stepRunsDecodedOperation (s.withFetchWord nbits w) (tableWord nbits w) [] s.requests i rfl
    (decode_tableWord nbits w i h)).2

/-- Settles O51: the word that spells a well-formed operation decodes to it. -/
theorem performIsStep : Obligations.PerformIsStep := fun i input s hi =>
  step_of_decode_ok (s.issuing i input) (encode i) input s.requests i rfl
    (decode_of_spells (encode i) i (spells_encode i hi))

/-- Settles O8: `step` is `idle` where no request is to come. -/
theorem idleStepHoldsState : Obligations.IdleStepHoldsState := by
  intro s hq
  simp [step, hq, idle]

/-! ## Operations depend on the engine and `IN` alone (10_state.md R22) -/

/-- The outcome of an operation, carried over to another port: the engine and the response are the outcome's, the
requests and the counter those of `p`. -/
def onPortOf (p : State) : Host.Outcome State Fault Refusal → Host.Outcome State Fault Refusal
  | .next t => .next { p with toEngine := t.toEngine, reply := t.reply }
  | .fault f => .fault f
  | .refused r => .refused r

@[simp] theorem onPortOf_next (p t : State) :
    onPortOf p (.next t) = .next { p with toEngine := t.toEngine, reply := t.reply } := rfl
@[simp] theorem onPortOf_fault (p : State) (f : Fault) : onPortOf p (.fault f) = .fault f := rfl

/-- An operation does on another port, with the same engine and the same bits of `IN`, what it does on this one. -/
theorem exec_eq_onPortOf (i : Instr) (s s' : State) (he : s'.toEngine = s.toEngine)
    (hin : ∀ t, readIn s' t = readIn s t) : exec i s' = onPortOf s' (exec i s) := by
  have hin : readIn s' = readIn s := funext hin
  obtain ⟨e, q, r, n⟩ := s
  obtain ⟨e', q', r', n'⟩ := s'
  obtain rfl : e' = e := he
  cases i with
  | init k =>
    simp only [exec, execInit]
    split_ifs <;> rfl
  | proc n =>
    simp only [exec, execProc, hin]
    split_ifs
    · rfl
    · rfl
    · rfl
    · split <;> rfl
  | rdk =>
    simp only [exec, execRdk]
    split_ifs <;> rfl
  | rdstat => rfl
  | resolve std cls rate => rfl

/-- Settles O52: the outcome on the second port is the first's carried over. -/
theorem operationsDependOnParametersOnly : Obligations.OperationsDependOnParametersOnly := by
  intro i s s' he hin
  have hexec := exec_eq_onPortOf i s s' he hin
  refine ⟨fun t ht => ⟨{ s' with toEngine := t.toEngine, reply := t.reply }, ?_, rfl, rfl⟩, fun f hf => ?_⟩
  · rw [hexec, ht, onPortOf_next]
  · rw [hexec, hf, onPortOf_fault]

/-! ## A step keeps nothing of its move (10_state.md R22, 20_memory.md R37) -/

/-- The outcome of a step, but with other moves still to come. -/
def withRequests (rest : List Request) : Host.Outcome State Fault Refusal → Host.Outcome State Fault Refusal
  | .next t => .next { t with requests := rest }
  | .fault f => .fault f
  | .refused r => .refused r

@[simp] theorem withRequests_next (rest : List Request) (t : State) :
    withRequests rest (.next t) = .next { t with requests := rest } := rfl
@[simp] theorem withRequests_fault (rest : List Request) (f : Fault) :
    withRequests rest (.fault f) = .fault f := rfl

/-- The same next move binds the same buffer. -/
theorem readIn_eq_of_same_move (s s' : State) (move : Request) (rest rest' : List Request)
    (hf : s'.fresh = s.fresh) (hq : s.requests = move :: rest) (hq' : s'.requests = move :: rest') (t : Nat) :
    readIn s' t = readIn s t :=
  readIn_congr s s' (by cases move <;> simp [State.boundInput, hq, hq']) hf t

/-- Raising a fault writes the engine as the engine alone says, and overwrites the earlier response. -/
theorem raise_complete_of_same_move (s s' : State) (f : CoreFault) (move : Request) (rest' : List Request)
    (he : s'.toEngine = s.toEngine) (hf : s'.fresh = s.fresh) (hq' : s'.requests = move :: rest') :
    (s'.raise f).complete = { (s.raise f).complete with requests := rest' } := by
  obtain ⟨e, q, r, n⟩ := s
  obtain ⟨e', q', r', n'⟩ := s'
  obtain rfl : e' = e := he
  obtain rfl : n' = n := hf
  obtain rfl : q' = move :: rest' := hq'
  cases f <;> rfl

/-- A step is a function of the engine, the counter and the next move, but for the moves left to come. -/
theorem step_eq_withRequests (s s' : State) (move : Request) (rest rest' : List Request)
    (he : s'.toEngine = s.toEngine) (hf : s'.fresh = s.fresh) (hq : s.requests = move :: rest)
    (hq' : s'.requests = move :: rest') : step s' = withRequests rest' (step s) := by
  cases move with
  | reset =>
    rw [step_of_reset s rest hq, step_of_reset s' rest' hq']
    simp [State.complete, State.resetEvent, hf, hq']
  | command w input =>
    cases hd : decode w with
    | error why =>
      rw [step_of_decode_error s w input rest why hq hd, step_of_decode_error s' w input rest' why hq' hd,
        raise_complete_of_same_move s s' .illegalOperation _ rest' he hf hq', withRequests_next]
    | ok i =>
      have hexec := exec_eq_onPortOf i s s' he (readIn_eq_of_same_move s s' _ rest rest' hf hq hq')
      rw [step_of_decode_ok s w input rest i hq hd, step_of_decode_ok s' w input rest' i hq' hd, hexec]
      cases ht : exec i s with
      | next t =>
        obtain ⟨-, hfresh, -⟩ := exec_port i s t ht
        simp [State.complete, hfresh, hf, hq']
      | fault f => rfl
      | refused r => rfl

/-- Settles O53: `port_of_step` says what is left of the move, `step_eq_withRequests` that nothing else matters. -/
theorem callsLeaveNoTrace : Obligations.CallsLeaveNoTrace := by
  intro s s' move rest rest' he hf hq hq'
  have hstep := step_eq_withRequests s s' move rest rest' he hf hq hq'
  refine ⟨fun t ht => ?_, fun f hfault => ?_⟩
  · obtain ⟨hrest, hreply⟩ := port_of_step s t move rest hq ht
    exact ⟨hrest, hreply, by rw [hstep, ht, withRequests_next]⟩
  · rw [hstep, hfault, withRequests_fault]

/-! ## What the harness cannot observe (10_state.md R24, 43_status.md R107) -/

/-- Two outcomes the harness cannot tell apart: next states it cannot tell apart, or the same stop. -/
inductive OutcomesSameToHarness : (o o' : Host.Outcome State Fault Refusal) → Prop
  | next {t t' : State} (h : SameToHarness t t') : OutcomesSameToHarness (.next t) (.next t')
  | fault (f : Fault) : OutcomesSameToHarness (.fault f) (.fault f)
  | refused (r : Refusal) : OutcomesSameToHarness (.refused r) (.refused r)

theorem SameToHarness.refl (s : State) : SameToHarness s s := ⟨rfl, fun _ _ _ => rfl⟩

theorem SameToHarness.reply_eq {s t : State} (h : SameToHarness s t) : t.reply = s.reply := by
  rw [h.1]

/-- A pair the harness cannot tell apart, written out: one state with another register and another table. -/
theorem SameToHarness.exists_eq {s t : State} (h : SameToHarness s t) : ∃ r m, t = { s with sr := r, seq := m } :=
  ⟨t.sr, t.seq, h.1⟩

/-- What changes the same in both, and writes neither `mode` nor `kbch` nor the hidden state, keeps them alike. -/
theorem SameToHarness.respond {s t : State} (h : SameToHarness s t) (v : BitVec 28) (out : List Bit) :
    SameToHarness (s.respond v out) (t.respond v out) := by
  obtain ⟨r, m, rfl⟩ := h.exists_eq
  exact ⟨rfl, h.2⟩

theorem SameToHarness.complete {s t : State} (h : SameToHarness s t) : SameToHarness s.complete t.complete := by
  obtain ⟨r, m, rfl⟩ := h.exists_eq
  exact ⟨rfl, h.2⟩

theorem SameToHarness.noReply {s t : State} (h : SameToHarness s t) :
    SameToHarness { s with reply := none } { t with reply := none } := by
  obtain ⟨r, m, rfl⟩ := h.exists_eq
  exact ⟨rfl, h.2⟩

theorem SameToHarness.raise {s t : State} (h : SameToHarness s t) (f : CoreFault) :
    SameToHarness (s.raise f) (t.raise f) := by
  obtain ⟨r, m, rfl⟩ := h.exists_eq
  cases f <;> exact ⟨rfl, h.2⟩

/-- Both constructions fill the window with `G`, and load the same register. -/
theorem SameToHarness.constructed {s t : State} (h : SameToHarness s t) (k : Nat)
    (hk : k ≤ Config.maxSequenceLength) : SameToHarness (s.constructed k) (t.constructed k) := by
  obtain ⟨r, m, rfl⟩ := h.exists_eq
  refine ⟨rfl, fun _ j hj => ?_⟩
  have hlt : j < Config.maxSequenceLength := lt_of_lt_of_le hj hk
  exact (read_generateTable s.seq j hlt).trans (read_generateTable m j hlt).symm

/-- The reset event overwrites all of the engine, with a register that depends on the counter only. -/
theorem SameToHarness.resetEvent_eq {s t : State} (h : SameToHarness s t) : t.resetEvent = s.resetEvent := by
  rw [h.1]
  rfl

/-- On a Ready engine the frame loop reads the window only. -/
theorem procFrames_eq_of_sameToHarness {s t : State} (h : SameToHarness s t) (hm : s.mode = .ready)
    (frames i : Nat) :
    procFrames t.toEngine (readIn t) frames i = procFrames s.toEngine (readIn s) frames i := by
  obtain ⟨r, m, rfl⟩ := h.exists_eq
  let e : Engine := { s.toEngine with sr := r, seq := m }
  have hread : ∀ j, j < s.kbch → readSeq s.toEngine j = readSeq e j := fun j hj => by
    simp only [readSeq, h.2 hm j hj, e]
  exact (procFrames_congr s.toEngine e (readIn s) rfl hread frames i).symm

/-- An operation, in two states the harness cannot tell apart. -/
theorem exec_sameToHarness (i : Instr) {s t : State} (h : SameToHarness s t) :
    OutcomesSameToHarness (exec i s) (exec i t) := by
  have hframes := procFrames_eq_of_sameToHarness h
  obtain ⟨r, m, rfl⟩ := h.exists_eq
  cases i with
  | init k =>
    simp only [exec, execInit]
    split_ifs with ha hk
    · exact .next (h.raise _)
    · exact .next (h.raise _)
    · exact .next (h.constructed k (by omega))
  | proc n =>
    simp only [exec, execProc]
    split_ifs with hm hk hn
    · exact .next (h.raise _)
    · exact .fault _
    · exact .next (h.raise _)
    · rw [hframes (not_not.1 hm)]
      split
      · exact .fault _
      · exact .next (h.respond _ _)
  | rdk =>
    simp only [exec, execRdk]
    split_ifs
    · exact .next (h.raise _)
    · exact .next (h.respond _ _)
  | rdstat => exact .next (h.respond _ _)
  | resolve std cls rate => exact .next (h.respond _ _)

theorem OutcomesSameToHarness.completing {o o' : Host.Outcome State Fault Refusal}
    (h : OutcomesSameToHarness o o') : OutcomesSameToHarness (completing o) (completing o') := by
  cases h with
  | next h => exact .next h.complete
  | fault f => exact .fault f
  | refused r => exact .refused r

/-- A step, in two states the harness cannot tell apart. -/
theorem step_sameToHarness {s t : State} (h : SameToHarness s t) : OutcomesSameToHarness (step s) (step t) := by
  have hrequests : t.requests = s.requests := by rw [h.1]
  rcases hq : s.requests with _ | ⟨(⟨w, input⟩ | _), rest⟩
  · rw [idleStepHoldsState s hq, idleStepHoldsState t (hrequests.trans hq)]
    exact .next h.noReply
  · cases hd : decode w with
    | error why =>
      rw [step_of_decode_error s w input rest why hq hd,
        step_of_decode_error t w input rest why (hrequests.trans hq) hd]
      exact .next (h.raise _).complete
    | ok i =>
      rw [step_of_decode_ok s w input rest i hq hd, step_of_decode_ok t w input rest i (hrequests.trans hq) hd]
      exact (exec_sameToHarness i h).completing
  · rw [step_of_reset s rest hq, step_of_reset t rest (hrequests.trans hq), h.resetEvent_eq]
    exact .next (.refl _)

/-- Settles O48: `step_sameToHarness`, read from the outcome of the first state. -/
theorem hiddenStateIsUnobservable : Obligations.HiddenStateIsUnobservable := by
  intro s s' h
  have hstep := step_sameToHarness h
  generalize step s' = o' at hstep
  refine ⟨fun t ht => ?_, fun f hf => ?_⟩
  · rw [ht] at hstep
    cases hstep with
    | next ht' => exact ⟨_, rfl, ht'.reply_eq, ht'⟩
  · rw [hf] at hstep
    cases hstep with
    | fault => rfl

end Sys2Proof.Machine
end

section
/-! PROOF. The other direction of the round trip (30_encoding.md R63): a word is fixed by the operation it spells. -/

namespace Sys2Proof

/-- The four fields of R57 cover the operand of `RESOLVE`. -/
theorem resolveOperand_ext (x y : BitVec 28) (hzero : x.extractLsb' 11 17 = y.extractLsb' 11 17)
    (hstd : x.getLsbD 10 = y.getLsbD 10) (hcls : x.extractLsb' 8 2 = y.extractLsb' 8 2)
    (hrate : x.extractLsb' 0 8 = y.extractLsb' 0 8) : x = y := by
  have hfield : ∀ start len, x.extractLsb' start len = y.extractLsb' start len →
      ∀ b, start ≤ b → b < start + len → x.getLsbD b = y.getLsbD b := by
    intro start len h b hstart hlen
    have hbit := congrArg (BitVec.getLsbD · (b - start)) h
    simpa [show b - start < len by omega, Nat.add_sub_cancel' hstart] using hbit
  refine BitVec.eq_of_getLsbD_eq fun b hb => ?_
  rcases (by omega : b < 8 ∨ (8 ≤ b ∧ b < 10) ∨ b = 10 ∨ 11 ≤ b) with h | ⟨h, h'⟩ | rfl | h
  · exact hfield 0 8 hrate b (by omega) (by omega)
  · exact hfield 8 2 hcls b h h'
  · exact hstd
  · exact hfield 11 17 hzero b h (by omega)

theorem word_ext (w w' : Word32) (hop : opField w = opField w') (harg : argField w = argField w') : w = w' :=
  ((eq_append_iff_fields w _ _).2 ⟨rfl, rfl⟩).trans ((eq_append_iff_fields w' _ _).2 ⟨hop.symm, harg.symm⟩).symm

/-- No two words spell the same operation. -/
theorem eq_of_spells (w w' : Word32) (i : Instr) (h : Spells w i) (h' : Spells w' i) : w = w' := by
  cases i with
  | init k => exact word_ext w w' (h.1.trans h'.1.symm) (BitVec.eq_of_toNat_eq (h.2.trans h'.2.symm))
  | proc n => exact word_ext w w' (h.1.trans h'.1.symm) (BitVec.eq_of_toNat_eq (h.2.trans h'.2.symm))
  | rdk => exact word_ext w w' (h.1.trans h'.1.symm) (h.2.trans h'.2.symm)
  | rdstat => exact word_ext w w' (h.1.trans h'.1.symm) (h.2.trans h'.2.symm)
  | resolve std cls rate =>
    obtain ⟨hop, hzero, hstd, hcls, hrate⟩ := h
    obtain ⟨hop', hzero', hstd', hcls', hrate'⟩ := h'
    exact word_ext w w' (hop.trans hop'.symm) (resolveOperand_ext _ _ (hzero.trans hzero'.symm)
      (hstd.trans hstd'.symm) (hcls.trans hcls'.symm) (hrate.trans hrate'.symm))

/-- Settles O2: the word and the encoded one spell the same operation. -/
theorem encodeOfDecodedWord : Obligations.EncodeOfDecodedWord := by
  intro w i h
  have hwf := decode_wellFormed w i h
  exact ⟨hwf, eq_of_spells (encode i) w i (spells_encode i hwf) (spells_of_decode w i h)⟩

/-- Settles O4: each word is a literal, and the decoder computes. -/
theorem decodeOfFixedWords : Obligations.DecodeOfFixedWords := by
  unfold Obligations.DecodeOfFixedWords
  decide

end Sys2Proof
end

section
/-! PROOF. The remaining statements about single operations: `RESOLVE` on an identifier (40_resolver.md R65), `RDK`
(43_status.md R105), where `PROC` stops (notes/assumptions/9.md), and the table `INIT` writes (41_generator.md R76). -/

namespace Sys2Proof.Machine

/-- Settles O9: the code stands for the identifier, and what is looked up is its entry. -/
theorem resolveAnswersTableEntry : Obligations.ResolveAnswersTableEntry := fun s std cls r hr =>
  exec_resolve_of_entry std cls r _ s hr rfl

theorem exec_rdk_of_ready (s : State) (hm : s.mode = .ready) :
    exec .rdk s = .next (s.respond (BitVec.ofNat 28 s.kbch) []) :=
  if_neg (not_not.2 hm)

/-- Settles O33: the admission check is the one of `RDK`, and under the invariant a Ready engine is one of R146. -/
theorem rdkAnswersGranularity : Obligations.RdkAnswersGranularity := by
  refine fun s => ⟨exec_rdk_of_ready s, fun hm => ?_, fun h hm => ?_⟩
  · exact exec_of_not_admitted .rdk s (by simp [Admitted, hm])
  · obtain ⟨k, -, rfl, h1, h2, -⟩ := h.exists_readyWith hm
    exact ⟨h1, h2, lt_of_le_of_lt h2 length_lt⟩

/-! ## Where `PROC` stops -/

theorem readSeq_ok (e : Engine) (t : Nat) (h : t < Config.maxSequenceLength) (hread : Memory.read e.seq t ≠ none) :
    ∃ b, readSeq e t = .ok b := by
  obtain ⟨b, hb⟩ := Option.ne_none_iff_exists'.1 hread
  exact ⟨b, by simp [readSeq, h, hb]⟩

theorem readSeq_unwritten (e : Engine) (t : Nat) (h : t < Config.maxSequenceLength)
    (hread : Memory.read e.seq t = none) : readSeq e t = .error .unwrittenEntry := by
  simp [readSeq, h, hread]

theorem readSeq_out_of_range (e : Engine) (t : Nat) (h : Config.maxSequenceLength ≤ t) :
    readSeq e t = .error .seqIndexOutOfRange := by
  simp [readSeq, Nat.not_lt.2 h]

/-- The inner loop stops as the first entry it cannot read makes it stop. -/
theorem procBits_stops (e : Engine) (input : Nat → Bit) (i j : Nat) (f : Fault) (hstop : readSeq e j = .error f)
    (n j0 : Nat) (hj0 : j0 ≤ j) (hj : j < j0 + n) (hok : ∀ u, j0 ≤ u → u < j → ∃ b, readSeq e u = .ok b) :
    procBits e input i n j0 = .error f := by
  induction n generalizing j0 with
  | zero => omega
  | succ n ih =>
    rcases Nat.eq_or_lt_of_le hj0 with rfl | hlt
    · simp [procBits, hstop]
    · obtain ⟨b, hb⟩ := hok j0 (by omega) hlt
      have hrest := ih (j0 + 1) (by omega) (by omega) fun u hu => hok u (by omega)
      simp [procBits, hb, hrest]

/-- `PROC` of at least one frame stops in its first frame, at the first entry of the window it cannot read. -/
theorem execProc_stops (n j : Nat) (s : State) (f : Fault) (hm : s.mode = .ready) (hk : 1 ≤ s.kbch) (hn : 0 < n)
    (hmod : n % s.kbch = 0) (hj : j < s.kbch) (hstop : readSeq s.toEngine j = .error f)
    (hok : ∀ u, u < j → ∃ b, readSeq s.toEngine u = .ok b) : execProc n s = .fault f := by
  have hframe : 0 < n / s.kbch := Nat.div_pos (Nat.le_of_dvd hn (Nat.dvd_of_mod_eq_zero hmod)) hk
  obtain ⟨frames, hframes⟩ := Nat.exists_eq_add_one_of_ne_zero (Nat.ne_of_gt hframe)
  have hfirst : procBits s.toEngine (readIn s) 0 s.kbch 0 = .error f :=
    procBits_stops s.toEngine _ 0 j f hstop s.kbch 0 (by omega) (by omega) fun u _ => hok u
  have hk0 : s.kbch ≠ 0 := by omega
  simp [execProc, hm, hk0, hmod, hframes, procFrames, hfirst]

/-- Settles O27: what `readSeq` says of the first entry it cannot read is what `PROC` stops with. -/
theorem procStopsWithoutWindow : Obligations.ProcStopsWithoutWindow := by
  refine fun n s hm => ⟨fun hk => ?_, fun hk hn hmod j hj hbelow => ?_⟩
  · simp [exec, execProc, hm, hk]
  · have hok : ∀ u, u < j → ∃ b, readSeq s.toEngine u = .ok b := fun u hu =>
      readSeq_ok s.toEngine u (hbelow u hu).1 (hbelow u hu).2
    refine ⟨fun hlt hread => ?_, fun hge => ?_⟩
    · exact execProc_stops n j s _ hm hk hn hmod hj (readSeq_unwritten s.toEngine j hlt hread) hok
    · exact execProc_stops n j s _ hm hk hn hmod hj (readSeq_out_of_range s.toEngine j hge) hok

/-! ## The table `INIT` writes (41_generator.md R76, R77) -/

/-- Settles O21: the table is the generated one. -/
theorem initConstructsEngine : Obligations.InitConstructsEngine := fun k s hm hc h1 h2 =>
  ⟨generateTable s.seq, execInit_constructs k s hm hc h1 h2, read_generateTable s.seq,
    read_generateTable_above s.seq⟩

/-- Reading tells the entries of a canonical table. -/
theorem mem_iff_read (m : Memory) (hm : Memory.wf m) (t : Nat) (b : Bit) :
    (t, b) ∈ m ↔ Memory.read m t = some b := by
  induction m with
  | nil => simp [Memory.read]
  | cons x m ih =>
    obtain ⟨a, c⟩ := x
    obtain ⟨hx, hm⟩ := List.pairwise_cons.1 hm
    rw [Memory.read, List.mem_cons, ih hm, Prod.mk.injEq]
    split_ifs with ha
    · have hnone : Memory.read m t = none := read_eq_none m t fun y hy => by
        have hlt : a < y.1 := hx y hy
        omega
      simp [ha, hnone, eq_comm]
    · simp [Ne.symm ha]

/-- Two canonical tables that read alike are the same list. -/
theorem eq_of_read_eq (m m' : Memory) (hm : Memory.wf m) (hm' : Memory.wf m')
    (h : ∀ t, Memory.read m t = Memory.read m' t) : m = m' := by
  have hperm : m.Perm m' := by
    refine (List.perm_ext_iff_of_nodup (hm.imp ?_) (hm'.imp ?_)).2 fun x => ?_
    · exact fun hlt he => by simp [he] at hlt
    · exact fun hlt he => by simp [he] at hlt
    · rw [mem_iff_read m hm, mem_iff_read m' hm', h]
  exact hperm.eq_of_pairwise (fun x y _ _ hxy hyx => by omega) hm hm'

theorem wf_generateLoop (n gi : Nat) (sr : ShiftReg) (m : Memory) (h : Memory.wf m) :
    Memory.wf (generateLoop n gi sr m).1 := by
  induction n generalizing gi sr m with
  | zero => exact h
  | succ n ih => exact ih _ _ _ (wf_write m gi _ h)

theorem generateLoop_register (n gi : Nat) (sr : ShiftReg) (m : Memory) :
    (generateLoop n gi sr m).2 = genIter n sr := by
  induction n generalizing gi sr m with
  | zero => rfl
  | succ n ih => exact ih _ _ _

/-- The loop writes the generated entries and leaves every other entry alone. -/
theorem read_generateLoop (n gi : Nat) (sr : ShiftReg) (m : Memory) (t : Nat) :
    Memory.read (generateLoop n gi sr m).1 t = (Memory.read (tableCells n gi sr) t).or (Memory.read m t) := by
  induction n generalizing gi sr m with
  | zero => rfl
  | succ n ih =>
    rw [generateLoop, ih, tableCells, Memory.read]
    by_cases h : gi = t
    · subst h
      have hlater : Memory.read (tableCells n (gi + 1) (genStep sr).2) gi = none := read_eq_none _ _ fun x hx => by
        have := mem_tableCells _ _ _ x hx
        omega
      simp [hlater]
    · rw [if_neg h, read_write_other m gi t _ (Ne.symm h)]

/-- Every entry of the generated table is what the loop writes, or what was there before. -/
theorem read_generateTable_eq (m : Memory) (t : Nat) :
    Memory.read (generateTable m) t =
      (Memory.read (tableCells Config.maxSequenceLength 0 seed) t).or (Memory.read m t) := by
  rcases Nat.lt_or_ge t Config.maxSequenceLength with h | h
  · have hcell := read_tableCells Config.maxSequenceLength 0 t seed h
    rw [Nat.zero_add] at hcell
    rw [generateTable, read_append, hcell, Option.some_or, Option.some_or]
  · rw [generateTable, read_append, read_filter_ge m _ t h]

/-- Settles O22: the two tables are canonical and read alike. -/
theorem initTableIsWriteLoop : Obligations.InitTableIsWriteLoop := by
  intro m hm
  refine Prod.ext (eq_of_read_eq _ _ (wf_generateLoop _ _ _ m hm) (wf_generateTable m hm) fun t => ?_) ?_
  · exact (read_generateLoop _ _ _ m t).trans (read_generateTable_eq m t).symm
  · exact (generateLoop_register _ _ _ m).trans (lfsrState_eq _).symm

end Sys2Proof.Machine
end

section
/-! PROOF. The period of the generator (41_generator.md section 3). The recurrence `S(t+15) = S(t) XOR S(t+1)` of R79
holds as well at the distances `2^k`, since squaring `x^15 = x + 1` over the field of two elements gives
`x^(15 * 2^k) = x^(2^k) + 1`. So a jump by `2^k` steps is an XOR of short ones, by which far values of `S` are
computed; that `S(32767)` is the seed, and that it is not so at `32767 / p` for the primes `p = 7, 31, 151`, then
fixes the period. -/

namespace Sys2Proof.Machine

/-! ## Far values of `S` -/

/-- The recurrence of R79, of whole registers. -/
theorem lfsrState_add_fifteen (t : Nat) : lfsrState (t + 15) = lfsrState t ^^^ lfsrState (t + 1) := by
  refine BitVec.eq_of_getLsbD_eq fun k hk => ?_
  have hlow : (lfsrState (t + k)).getLsbD 0 = (lfsrState t).getLsbD k := by
    rw [lfsrState_add_getLsbD t k 0 (by omega), Nat.zero_add]
  have hnext : (lfsrState (t + k)).getLsbD 1 = (lfsrState (t + 1)).getLsbD k := by
    rw [← lfsrState_succ_low (t + k) 0 (by omega), Nat.add_right_comm, lfsrState_add_getLsbD (t + 1) k 0 (by omega),
      Nat.zero_add]
  rw [lfsrState_add_fifteen_getLsbD t k hk, lfsrBit_eq, hlow, hnext, BitVec.getLsbD_xor]

/-- The recurrence at the distance `2^k` (the recurrence of R79, squared `k` times). -/
theorem lfsrState_add_mul_two_pow (k t : Nat) :
    lfsrState (t + 15 * 2 ^ k) = lfsrState t ^^^ lfsrState (t + 2 ^ k) := by
  induction k generalizing t with
  | zero => exact lfsrState_add_fifteen t
  | succ k ih =>
    calc lfsrState (t + 15 * 2 ^ (k + 1))
        = lfsrState (t + 15 * 2 ^ k + 15 * 2 ^ k) := by congr 1; omega
      _ = lfsrState (t + 15 * 2 ^ k) ^^^ lfsrState (t + 2 ^ k + 15 * 2 ^ k) := by
          rw [ih (t + 15 * 2 ^ k)]; congr 2; omega
      _ = (lfsrState t ^^^ lfsrState (t + 2 ^ k)) ^^^ (lfsrState (t + 2 ^ k) ^^^ lfsrState (t + 2 ^ k + 2 ^ k)) := by
          rw [ih t, ih (t + 2 ^ k)]
      _ = lfsrState t ^^^ lfsrState (t + 2 ^ k + 2 ^ k) := by
          rw [BitVec.xor_assoc, ← BitVec.xor_assoc (lfsrState (t + 2 ^ k)), BitVec.xor_self, BitVec.zero_xor]
      _ = lfsrState t ^^^ lfsrState (t + 2 ^ (k + 1)) := by congr 2; omega

/-- `2^k` steps from the register `sr`, as an XOR of jumps by 1, 2, 4 or 8 steps: a jump by `2^(k+4)` is one by
`2^(k+1)` XOR one by `2^k`. -/
def jump (sr : ShiftReg) : Nat → ShiftReg
  | 0 => genIter 1 sr
  | 1 => genIter 2 sr
  | 2 => genIter 4 sr
  | 3 => genIter 8 sr
  | k + 4 => jump sr (k + 1) ^^^ jump sr k

theorem lfsrState_add (t n : Nat) : lfsrState (t + n) = genIter n (lfsrState t) := by
  rw [lfsrState_eq, lfsrState_eq, genIter_add]

theorem lfsrState_add_two_pow (k t : Nat) : lfsrState (t + 2 ^ k) = jump (lfsrState t) k := by
  induction k using jump.induct with
  | case1 => exact lfsrState_add t 1
  | case2 => exact lfsrState_add t 2
  | case3 => exact lfsrState_add t 4
  | case4 => exact lfsrState_add t 8
  | case5 k ihsucc ih =>
    calc lfsrState (t + 2 ^ (k + 4))
        = lfsrState (t + 2 ^ k + 15 * 2 ^ k) := by congr 1; rw [pow_add]; omega
      _ = lfsrState (t + 2 ^ k) ^^^ lfsrState (t + 2 ^ (k + 1)) := by
          rw [lfsrState_add_mul_two_pow]; congr 2; omega
      _ = jump (lfsrState t) (k + 4) := by rw [ih, ihsucc, BitVec.xor_comm, jump]

/-- A position written in binary, as the list of its powers of two, is reached by the jumps of the list. -/
theorem lfsrState_add_sum_two_pow (ks : List Nat) (t : Nat) :
    lfsrState (t + (ks.map (2 ^ ·)).sum) = ks.foldl jump (lfsrState t) := by
  induction ks generalizing t with
  | nil => rfl
  | cons k ks ih =>
    rw [List.map_cons, List.sum_cons, ← Nat.add_assoc, ih, lfsrState_add_two_pow, List.foldl_cons]

/-- A position and its powers of two, from the seed. -/
theorem lfsrState_eq_jumps (t : Nat) (ks : List Nat) (ht : t = (ks.map (2 ^ ·)).sum) :
    lfsrState t = ks.foldl jump seed := by
  rw [ht, ← lfsrState_zero, ← lfsrState_add_sum_two_pow, Nat.zero_add]

/-- Settles O19: each position in binary, and the register there by jumps. -/
theorem lfsrCheckpoints : Obligations.LfsrCheckpoints := by
  refine ⟨?_, ?_, ?_, ?_, ?_, ?_⟩
  · exact (lfsrState_eq_jumps 8 [3] rfl).trans (by decide)
  · exact (lfsrState_eq_jumps 16 [4] rfl).trans (by decide)
  · exact (lfsrState_eq_jumps 3072 [10, 11] rfl).trans (by decide +kernel)
  · exact (lfsrState_eq_jumps 5660 [2, 3, 4, 9, 10, 12] rfl).trans (by decide +kernel)
  · exact (lfsrState_eq_jumps 7032 [3, 4, 5, 6, 8, 9, 11, 12] rfl).trans (by decide +kernel)
  · exact (lfsrState_eq_jumps 16008 [3, 7, 9, 10, 11, 12, 13] rfl).trans (by decide +kernel)

/-! ## The period of the register -/

theorem genIter_eq_iterate (n : Nat) (sr : ShiftReg) : genIter n sr = genNext^[n] sr := by
  induction n generalizing sr with
  | zero => rfl
  | succ n ih => exact ih _

theorem lfsrState_eq_iterate (t : Nat) : lfsrState t = genNext^[t] seed := by
  rw [lfsrState_eq, genIter_eq_iterate]

/-- A period of the orbit of the seed is a position where the seed comes back. -/
theorem isPeriodicPt_seed_iff (n : Nat) : Function.IsPeriodicPt genNext n seed ↔ lfsrState n = seed := by
  rw [lfsrState_eq_iterate]
  rfl

/-- A period is the least one if no quotient of it by a prime is a period. -/
theorem minimalPeriod_eq_of_not_isPeriodicPt_div {α : Type} (f : α → α) (x : α) (n : Nat)
    (h : Function.IsPeriodicPt f n x)
    (hdiv : ∀ p, p.Prime → p ∣ n → ¬ Function.IsPeriodicPt f (n / p) x) : Function.minimalPeriod f x = n := by
  obtain ⟨c, hc⟩ := h.minimalPeriod_dvd
  have hc1 : c = 1 := by
    by_contra hne
    obtain ⟨p, hp, q, rfl⟩ := Nat.exists_prime_and_dvd hne
    refine hdiv p hp ⟨Function.minimalPeriod f x * q, by rw [hc]; ring⟩ ?_
    rw [Function.isPeriodicPt_iff_minimalPeriod_dvd]
    refine ⟨q, Nat.div_eq_of_eq_mul_right hp.pos (hc.trans ?_)⟩
    ring
  rw [hc, hc1, Nat.mul_one]

/-- The seed comes back after 32767 steps. -/
theorem lfsrState_period : lfsrState 32767 = seed :=
  (lfsrState_eq_jumps 32767 (List.range 15) rfl).trans (by decide +kernel)

/-- The prime factors of 32767 (41_generator.md section 3). -/
theorem prime_dvd_period (p : Nat) (hp : p.Prime) (h : p ∣ 32767) : p = 7 ∨ p = 31 ∨ p = 151 := by
  have hfactors : 32767 = 7 * 31 * 151 := by norm_num
  rw [hfactors, hp.dvd_mul, hp.dvd_mul, Nat.prime_dvd_prime_iff_eq hp (by norm_num),
    Nat.prime_dvd_prime_iff_eq hp (by norm_num), Nat.prime_dvd_prime_iff_eq hp (by norm_num), or_assoc] at h
  exact h

theorem minimalPeriod_seed : Function.minimalPeriod genNext seed = 32767 := by
  refine minimalPeriod_eq_of_not_isPeriodicPt_div genNext seed 32767
    ((isPeriodicPt_seed_iff _).2 lfsrState_period) fun p hp hdvd => ?_
  rw [isPeriodicPt_seed_iff]
  rcases prime_dvd_period p hp hdvd with rfl | rfl | rfl
  · rw [lfsrState_eq_jumps (32767 / 7) [0, 3, 6, 9, 12] rfl]
    decide +kernel
  · rw [lfsrState_eq_jumps (32767 / 31) [0, 5, 10] rfl]
    decide +kernel
  · rw [lfsrState_eq_jumps (32767 / 151) [0, 3, 4, 6, 7] rfl]
    decide +kernel

theorem lfsrState_ne_seed (t : Nat) (h0 : 0 < t) (ht : t < 32767) : lfsrState t ≠ seed := by
  rw [Ne, ← isPeriodicPt_seed_iff]
  exact Function.not_isPeriodicPt_of_pos_of_lt_minimalPeriod (by omega) (by rwa [minimalPeriod_seed])

/-- No value comes twice in a period. -/
theorem lfsrState_injOn : Set.InjOn lfsrState (Finset.range 32767) := by
  intro t ht u hu h
  have hinj := Function.iterate_injOn_Iio_minimalPeriod (f := genNext) (x := seed)
  rw [minimalPeriod_seed] at hinj
  refine hinj (by simpa using ht) (by simpa using hu) ?_
  simpa only [lfsrState_eq_iterate] using h

theorem card_shiftReg : Fintype.card ShiftReg = 32768 := FinEnum.card_eq_fintypeCard.symm

/-- The values of a period are the nonzero ones: they are nonzero, distinct, and as many. -/
theorem image_lfsrState_range : (Finset.range 32767).image lfsrState = Finset.univ.erase 0 := by
  refine Finset.eq_of_subset_of_card_le (fun x hx => ?_) ?_
  · obtain ⟨t, -, rfl⟩ := Finset.mem_image.1 hx
    exact Finset.mem_erase.2 ⟨lfsrNeverZero.2 t, Finset.mem_univ _⟩
  · rw [Finset.card_image_of_injOn lfsrState_injOn, Finset.card_range, Finset.card_erase_of_mem (Finset.mem_univ _),
      Finset.card_univ, card_shiftReg]

theorem lfsrState_add_period (t : Nat) : lfsrState (t + 32767) = lfsrState t := by
  rw [Nat.add_comm, lfsrState_add, lfsrState_period, ← lfsrState_eq]

/-! ## The period of the output -/

theorem lfsrBit_add_period (t : Nat) : lfsrBit (t + 32767) = lfsrBit t := by
  rw [lfsrBit, lfsrState_add_period, lfsrBit]

/-- A period of the output is one of the register, which holds fifteen outputs. -/
theorem lfsrState_eq_seed_of_lfsrBit_add (p : Nat) (h : ∀ t, lfsrBit (t + p) = lfsrBit t) : lfsrState p = seed := by
  have hwindow : lfsrState (p + 15) = lfsrState 15 := BitVec.eq_of_getLsbD_eq fun k hk => by
    have hright := lfsrState_add_fifteen_getLsbD 0 k hk
    rw [Nat.zero_add, Nat.zero_add] at hright
    rw [lfsrState_add_fifteen_getLsbD p k hk, hright, Nat.add_comm, h]
  have hsum : 15 + 32752 = 32767 := by norm_num
  calc lfsrState p = lfsrState (p + 15 + 32752) := by rw [Nat.add_assoc, hsum, lfsrState_add_period]
    _ = lfsrState (15 + 32752) := by rw [lfsrState_add, hwindow, ← lfsrState_add]
    _ = seed := by rw [hsum, lfsrState_period]

/-- Turning over bit 0 turns over the output. -/
theorem genBit_xor_one (sr : ShiftReg) : genBit (sr ^^^ 1#15) = !genBit sr := by
  simp [genBit_eq]

theorem xor_one_xor_one (sr : ShiftReg) : sr ^^^ 1#15 ^^^ 1#15 = sr := by
  rw [BitVec.xor_assoc, BitVec.xor_self, BitVec.xor_zero]

/-- What is turned over by an involution holds of half of the values. -/
theorem two_mul_card_filter_of_flip {α : Type} [Fintype α] (p : α → Bool) (flip : α → α)
    (hflip : ∀ x, flip (flip x) = x) (hp : ∀ x, p (flip x) = !p x) :
    2 * (Finset.univ.filter fun x => p x = true).card = Fintype.card α := by
  have hcard : (Finset.univ.filter fun x => p x = true).card = (Finset.univ.filter fun x => ¬ p x = true).card :=
    Finset.card_nbij' flip flip (fun x => by simp [hp]) (fun x => by simp [hp]) (fun x _ => hflip x)
      (fun x _ => hflip x)
  have htotal := Finset.card_filter_add_card_filter_not (s := Finset.univ) fun x => p x = true
  rw [← hcard, Finset.card_univ] at htotal
  omega

/-- Half of all register values put out a one. -/
theorem card_genBit : (Finset.univ.filter fun sr : ShiftReg => genBit sr = true).card = 16384 := by
  have htwo := two_mul_card_filter_of_flip genBit (· ^^^ 1#15) xor_one_xor_one genBit_xor_one
  rw [card_shiftReg] at htwo
  omega

/-- Where no value comes twice, the ones put out are as many as the values that put one out. -/
theorem countP_lfsrBit_of_injOn (n : Nat) (h : Set.InjOn lfsrState (Finset.range n)) :
    (List.range n).countP (fun t => lfsrBit t) =
      (((Finset.range n).image lfsrState).filter fun sr => genBit sr = true).card := by
  have hcount : (List.range n).countP (fun t => lfsrBit t) = Nat.count (fun t => lfsrBit t = true) n := by
    simp only [Nat.count, Bool.decide_eq_true]
  rw [hcount, Nat.count_eq_card_filter_range, Finset.filter_image,
    Finset.card_image_of_injOn (h.mono (Finset.coe_subset.2 (Finset.filter_subset _ _)))]
  rfl

theorem countP_not_lfsrBit (n : Nat) :
    (List.range n).countP (fun t => lfsrBit t) + (List.range n).countP (fun t => !lfsrBit t) = n := by
  simpa using (List.length_eq_countP_add_countP (fun t => lfsrBit t) (l := List.range n)).symm

/-- The ones of a period: the nonzero values that put out a one are all that do. -/
theorem countP_lfsrBit_period : (List.range 32767).countP (fun t => lfsrBit t) = 16384 := by
  rw [countP_lfsrBit_of_injOn _ lfsrState_injOn, image_lfsrState_range, Finset.filter_erase,
    Finset.erase_eq_of_notMem (by simp [genBit_eq]), card_genBit]

/-- Settles O17: the period of the register is `minimalPeriod_seed`, that of the output follows from the window, and
the ones are counted over all register values. -/
theorem sequencePeriod : Obligations.SequencePeriod := by
  refine ⟨lfsrState_period, lfsrState_ne_seed, fun t u htu hu h => ?_, fun x => ?_, lfsrBit_add_period,
    fun p h0 hp => ?_, countP_lfsrBit_period, ?_, fun t ht => ?_⟩
  · exact Nat.ne_of_lt htu (lfsrState_injOn (Finset.mem_coe.2 (Finset.mem_range.2 (htu.trans hu)))
      (Finset.mem_coe.2 (Finset.mem_range.2 hu)) h)
  · have hx := Finset.ext_iff.1 image_lfsrState_range x
    simpa using hx.symm
  · by_contra hperiod
    exact lfsrState_ne_seed p h0 hp (lfsrState_eq_seed_of_lfsrBit_add p (by simpa using hperiod))
  · have htotal := countP_not_lfsrBit 32767
    rw [countP_lfsrBit_period] at htotal
    exact Nat.add_left_cancel htotal
  · rw [← lfsrBit_add_period (t - 32767), Nat.sub_add_cancel ht]

end Sys2Proof.Machine
end
